-- ==== Sys2Proof/Word.lean ====
section
/-! DEFINITION. The widths of the block: lane, byte, command word, micro-operation code (R5, R7, R20, R80, R88). -/

namespace Sys2Proof

/-- A lane `x[i]`, 64 bits, bit 0 least significant (R7, R20). -/
abbrev Lane := BitVec 64

/-- A byte, bit 0 least significant (R7). -/
abbrev Byte := BitVec 8

/-- The permutation state: the 25 lanes `x[0] … x[24]` (R20). -/
abbrev Lanes := Vector Lane 25

/-- The digest buffer `OUT[0..63]` (R34). -/
abbrev OutBytes := Vector Byte 64

/-- A host command word `CW`, 72 bits (R80). -/
abbrev CommandWord := BitVec 72

/-- A micro-operation code, the 3-bit value of `STEP` (R88). -/
abbrev MicroCode := BitVec 3

end Sys2Proof
end

