-- ==== Sys2Proof/Machine/Rom.lean ====
section
/-! DEFINITION. The constant ROMs (R31, R32, R33): configuration, not state; nothing writes them. The spec supplies the
tables from general knowledge of FIPS 202 (its G1 to G3): PRESUMED, log 10. They are written here as the spec writes them. -/

namespace Sys2Proof.Machine

/-- `RHO_OFF[0..24]`, the rotation amount of each lane in ρ (R31). -/
def rhoOff : Vector Nat 25 :=
  #v[ 0,  1, 62, 28, 27,
     36, 44,  6, 55, 20,
      3, 10, 43, 25, 39,
     41, 45, 15, 21,  8,
     18,  2, 61, 56, 14]

/-- `PI_DST[0..24]`: where π moves the lane at position `p` (R32). -/
def piDst : Vector (Fin 25) 25 :=
  #v[ 0, 10, 20,  5, 15,
     16,  1, 11, 21,  6,
      7, 17,  2, 12, 22,
     23,  8, 18,  3, 13,
     14, 24,  9, 19,  4]

/-- `PI_SRC[0..24]`, the inverse table: the position from which π fills position `q` (R32). -/
def piSrc : Vector (Fin 25) 25 :=
  #v[ 0,  6, 12, 18, 24,
      3,  9, 10, 16, 22,
      1,  7, 13, 19, 20,
      4,  5, 11, 17, 23,
      2,  8, 14, 15, 21]

/-- The table of R33, row by row: a row holds the constants of round `rnd` and of round `rnd + 12`. -/
def roundConstRows : Vector (Lane × Lane) 12 :=
  #v[(0x0000000000000001, 0x000000008000808B),
     (0x0000000000008082, 0x800000000000008B),
     (0x800000000000808A, 0x8000000000008089),
     (0x8000000080008000, 0x8000000000008003),
     (0x000000000000808B, 0x8000000000008002),
     (0x0000000080000001, 0x8000000000000080),
     (0x8000000080008081, 0x000000000000800A),
     (0x8000000000008009, 0x800000008000000A),
     (0x000000000000008A, 0x8000000080008081),
     (0x0000000000000088, 0x8000000000008080),
     (0x0000000080008009, 0x0000000080000001),
     (0x000000008000000A, 0x8000000080008008)]

/-- `RC[0..23]`, the round constants of ι (R33). -/
def roundConst : Vector Lane 24 :=
  Vector.ofFn fun rnd =>
    let row := roundConstRows[rnd.val % 12]
    if rnd.val < 12 then row.1 else row.2

end Sys2Proof.Machine
end

