-- ==== Sys2Proof/Machine/Operands.lean ====
section
/-! DEFINITION. Operand forms and the 64-bit operations: rotation (R8), bytes of a lane (R51), byte reversal (R167), the
selector of `INIT` (R82), the message word of `ABSORBW` (R84). -/

namespace Sys2Proof.Machine

/-- "Circular left rotation of a 64-bit value" (R8): bit `i` of `a` becomes bit `(i + n) mod 64`. -/
def rotl (a : Lane) (n : Nat) : Lane := (a <<< n) ||| (a >>> (64 - n))

/-- Byte `k` of a lane, bits `[8k+7 : 8k]` (R51). -/
def byteOf (w : Lane) (k : Nat) : Byte := w.extractLsb' (8 * k) 8

/-- A byte alone at byte position `k` of a lane: `zext_64(b) << 8k` (R56). -/
def byteAt (b : Byte) (k : Nat) : Lane := b.setWidth 64 <<< (8 * k)

/-- Replace byte `k` of a lane and leave its other 56 bits (R54). -/
def setByteOf (w : Lane) (k : Nat) (b : Byte) : Lane := (w &&& ~~~(byteAt 0xFF k)) ||| byteAt b k

/-- The lane whose bytes are `m 0` (lowest) to `m 7`: `m0 + 2^8 m1 + … + 2^56 m7` (R51, R84). -/
def laneOfBytes (m : Nat → Byte) : Lane := m 7 ++ m 6 ++ m 5 ++ m 4 ++ m 3 ++ m 2 ++ m 1 ++ m 0

/-- `bswap64`: byte `k` of the result is byte `7 − k` of `w` (R167). -/
def bswap64 (w : Lane) : Lane := laneOfBytes fun k => byteOf w (7 - k)

/-- The four selectors `INIT` accepts (R82, R161). -/
def legalSelector (alg : Byte) : Bool := alg == 28 || alg == 32 || alg == 48 || alg == 64

/-- `RATE` for a digest size: `200 − 2·alg` (R24, R161). -/
def rateOf (alg : Byte) : Byte := 200 - 2 * alg

/-- The endianness converter: the lane value `w` of an `ABSORBW` operand (R84, R168). -/
def messageWord (hostBE : Bool) (arg : Lane) : Lane := if hostBE then bswap64 arg else arg

end Sys2Proof.Machine
end

