-- ==== Sys2Proof/Config.lean ====
section
/-! DEFINITION. What is fixed for every instance (sizes, R5) and the values the spec leaves unspecified (R39, R230). -/

namespace Sys2Proof.Config

/-- `STATEBYTES`: the number of bytes of `ST` (R5, R50). -/
abbrev stBytes : Nat := 200

/-- `OUTBYTES`: the number of bytes of `OUT` (R5, R34). -/
abbrev outBytes : Nat := 64

/-- `NROUNDS` (R5). -/
abbrev rounds : Nat := 24

/-- The number of micro-operations of one permutation: `NROUNDS` times `NSTEPS` (R140). -/
abbrev microOps : Nat := 120

/-! The free values. After a reset EVENT the lanes, `DSIZE`, `RATE`, `FILL` and `OUT` are unspecified: "an arbitrary value
under no law" (R39, R230, R231). Each is a constant with no body, applied to the number of reset events taken so far, so
that nothing can be proved of any of them and two resets need not leave the same values. Assumption log 2. -/

/-- What lane `i` holds after the `n`-th reset event. -/
opaque freeLane (n : Nat) (i : Fin 25) : Lane

/-- What `DSIZE` holds after the `n`-th reset event. -/
opaque freeDsize (n : Nat) : Byte

/-- What `RATE` holds after the `n`-th reset event. -/
opaque freeRate (n : Nat) : Byte

/-- What `FILL` holds after the `n`-th reset event. -/
opaque freeFill (n : Nat) : Byte

/-- What `OUT[i]` holds after the `n`-th reset event. -/
opaque freeOut (n : Nat) (i : Fin 64) : Byte

end Sys2Proof.Config
end

