-- ==== Sys2Proof/Syntax.lean ====
section
/-! DEFINITION. The nine instructions of `spec/opcode_table.json` and the two kinds of word that carry them. -/

namespace Sys2Proof

/-- The two instruction formats: `CMD`, a host command word (R80), and `UOP`, a micro-operation code (R88). -/
inductive Format where
  | cmd
  | uop
  deriving DecidableEq, Repr

/-- One constructor per row of `spec/opcode_table.json`. -/
inductive Instr where
  /-- `INIT alg`: start a hash; `alg` is the digest size in bytes (R82, R161). -/
  | init (alg : Byte)
  /-- `ABSORB b`: absorb one message byte (R83, R163). -/
  | absorb (b : Byte)
  /-- `ABSORBW w`: absorb eight message bytes, packed as `HOST_BE` says (R84, R168). -/
  | absorbw (arg : Lane)
  /-- `FINAL`: pad, permute, squeeze, wipe (R85, R172). -/
  | final
  /-- `THETA`, micro-operation 0 (R112). -/
  | theta
  /-- `RHO`, micro-operation 1 (R116). -/
  | rho
  /-- `PI`, micro-operation 2 (R120). -/
  | pi
  /-- `CHI`, micro-operation 3 (R124). -/
  | chi
  /-- `IOTA`, micro-operation 4, its implicit operand the round index `RND` (R128). -/
  | iota
  deriving DecidableEq, Repr

/-- An instruction as the block receives it: a 72-bit word on the command port (R80), or the 3-bit code the sequencer
issues (R88). -/
inductive Encoded where
  | cmd (cw : CommandWord)
  | uop (code : MicroCode)
  deriving DecidableEq, Repr

end Sys2Proof
end

