-- ==== Sys2Proof/Machine/State.lean ====
section
/-! DEFINITION. The state of one instance (R20 to R39), the reasons a step can stop, and the state after reset. -/

namespace Sys2Proof.Machine

/-- `PHASE` (R27). Code 3 is "never held; no rule writes it", so it has no constructor. -/
inductive Phase where
  | uninit
  | absorbing
  | done
  deriving DecidableEq, Repr

/-- `FLT` (R28, R201): 0 none, then the five causes. Codes 6 and 7 are "never written", so they have no constructor. -/
inductive Flt where
  | clear
  | illegalCmd
  | badAlg
  | notInit
  | finalized
  | misaligned
  deriving DecidableEq, Repr

/-- `STEP` (R29): the mapping about to be applied. R88 lets a model make it a five-valued type. -/
inductive StepName where
  | theta
  | rho
  | pi
  | chi
  | iota
  deriving DecidableEq, Repr

/-- `SEQ = (RND, STEP)`, the sequencer (R29): `RND` is 0 to 23 and `STEP` 0 to 4, whatever the state. -/
structure Seq where
  rnd : Fin 24
  step : StepName
  deriving DecidableEq, Repr

/-- Whether the permutation engine is between the call and the return of `KECCAK_F()` (R145, R147). The model's own field:
the spec implies it where it says that `SEQ = (0, 0)` "whenever the engine is idle" (R29). Assumption log 4. -/
inductive Engine where
  | idle
  | permuting
  deriving DecidableEq, Repr

/-- What the host does to the block (R248): present a command word (R80), or assert `rst` (R230). -/
inductive HostInput where
  | command (cw : CommandWord)
  | rst
  deriving DecidableEq, Repr

/-- The whole state of one instance: the spec's own (R20 to R34), then the four fields of the model. -/
structure State where
  /-- `x[0..24]` (R20), of which `ST` is the byte view (R51). -/
  lanes : Lanes
  /-- `DSIZE`, CR0 (R23). -/
  dsize : Byte
  /-- `RATE`, CR1 (R24). -/
  rate : Byte
  /-- `FILL`, CR2 (R25). -/
  fill : Byte
  /-- `PHASE`, CR3 (R27). -/
  phase : Phase
  /-- `FLT`, CR4 (R28). -/
  flt : Flt
  /-- `SEQ`: `RND` and `STEP` (R29). -/
  seq : Seq
  /-- `OUT[0..63]` (R34). -/
  out : OutBytes
  /-- Whether a permutation is in progress. The model's own (log 4). -/
  engine : Engine
  /-- What the host does, in the order the block takes it (R13, R80, R230, R240). The model's own (log 3). -/
  inputs : List HostInput
  /-- The parameter `HOST_BE`, "fixed for the life of a device instance" (R6): no step writes it. The model's own (log 5). -/
  hostBE : Bool
  /-- How many reset events have been taken: the argument of the free values. The model's own (log 2). -/
  resets : Nat
  deriving DecidableEq, Repr

/-- Why the machine stops. -/
inductive Fault where
  /-- Raised by every command while `FLT ≠ 0`, with the cause `FLT` holds: the command "is not consumed and has no effect,
  whatever it is" and the block "has no step at all" until reset (R12, R205). Safe: the model says nothing of what
  follows. -/
  | halted (cause : Flt)
  /-- Raised by the access operations of `ST`, so by `ABSORB`, `ABSORBW` and `FINAL`, at an access of `bytes` bytes at
  address `addr` that R52 to R55 do not define: outside 0 to 199, or 8 bytes at an address that is no multiple of 8. No run
  reaches it (R26). Safe. -/
  | noStAccess (addr bytes : Nat)
  /-- Raised by `OutWrite`, so by `FINAL`, at an address outside 0 to 63 (R58). No run reaches it (R23, R34). Safe. -/
  | noOutByte (addr : Nat)
  /-- Raised by the step where the sequencer's code decodes to no micro-operation: codes 5, 6 and 7 are "never produced"
  (R88) and no value of `StepName` has one. Safe. -/
  | noMicroOp
  deriving DecidableEq, Repr

/-- Why an instruction has no meaning. -/
inductive Refusal where
  /-- Answered by the dispatch for an instruction that has no meaning yet (none is left). Safe. -/
  | notModelled (mnemonic : String)
  deriving DecidableEq, Repr

/-- What one step, one instruction or one operation on the whole state answers. -/
abbrev Result := Host.Outcome State Fault Refusal

/-- The idle value of the sequencer, `(0, 0)` (R29). -/
def Seq.start : Seq := ⟨0, .theta⟩

/-- The machine right after reset: `PHASE`, `FLT` and `SEQ` as R39 and R230 say. The spec gives no reset value for the
lanes, `DSIZE`, `RATE`, `FILL` and `OUT`: zero is the model's DESIGN CHOICE (log 1, unsafe). No command is waiting. -/
def State.reset : State where
  lanes := Vector.replicate 25 0
  dsize := 0
  rate := 0
  fill := 0
  phase := .uninit
  flt := .clear
  seq := Seq.start
  out := Vector.replicate 64 0
  engine := .idle
  inputs := []
  hostBE := false
  resets := 0

end Sys2Proof.Machine
end

