-- ==== Sys2Proof/Machine/Ops.lean ====
section
/-! DEFINITION. The named operations over the registers, the byte view `ST` and `OUT`; raising a fault (R203), accepting a
command (R160), and the reset event (R230), the only way out of a fault (R206). -/

namespace Sys2Proof.Machine

/-- Go on with `f` where `r` is a next state; stop where it stops. -/
def andThen (r : Result) (f : State → Result) : Result :=
  match r with
  | .next s => f s
  | .fault e => .fault e
  | .refused e => .refused e

/-! ## The byte view `ST` (R51 to R56) -/

/-- `MemRead(a, 1)` (R52): byte `a mod 8` of lane `a div 8`; no address outside 0 to 199 exists (R50). -/
def memRead1 (a : Nat) (x : Lanes) : Option Byte :=
  if h : a < 200 then some (byteOf (x[a / 8]'(by omega)) (a % 8)) else none

/-- `MemRead(a, 8)` (R53): defined at the multiples of 8 from 0 to 192. -/
def memRead8 (a : Nat) (x : Lanes) : Option Lane :=
  if h : a % 8 = 0 ∧ a < 200 then some (x[a / 8]'(by omega)) else none

/-- `MemWrite(a, 1, b)` (R54). -/
def memWrite1 (a : Nat) (b : Byte) (x : Lanes) : Option Lanes :=
  if h : a < 200 then some (x.set (a / 8) (setByteOf (x[a / 8]'(by omega)) (a % 8) b) (by omega)) else none

/-- `MemWrite(a, 8, w)` (R55). -/
def memWrite8 (a : Nat) (w : Lane) (x : Lanes) : Option Lanes :=
  if h : a % 8 = 0 ∧ a < 200 then some (x.set (a / 8) w (by omega)) else none

/-- `MemXor(a, 1, v)` (R56): the write of the byte read, XOR `v`. -/
def memXor1 (a : Nat) (v : Byte) (x : Lanes) : Option Lanes :=
  (memRead1 a x).bind fun b => memWrite1 a (b ^^^ v) x

/-- `MemXor(a, 8, v)` (R56). -/
def memXor8 (a : Nat) (v : Lane) (x : Lanes) : Option Lanes :=
  (memRead8 a x).bind fun w => memWrite8 a (w ^^^ v) x

/-- All 200 bytes of `ST` zero: the 25 writes of `INIT` and of the wipe (R60, R161, R177). -/
def zeroLanes : Lanes := Vector.replicate 25 0

/-- `MemXor(a, 1, v)` on the state; an address that does not exist stops the machine. -/
def xorByte (a : Nat) (v : Byte) (s : State) : Result :=
  match memXor1 a v s.lanes with
  | some x => .next { s with lanes := x }
  | none => .fault (.noStAccess a 1)

/-- `MemXor(a, 8, v)` on the state; an access that is not defined stops the machine. -/
def xorWord (a : Nat) (v : Lane) (s : State) : Result :=
  match memXor8 a v s.lanes with
  | some x => .next { s with lanes := x }
  | none => .fault (.noStAccess a 8)

/-! ## The digest buffer `OUT` (R34, R58) -/

/-- `OutWrite(i, b)` (R58). -/
def outWrite (i : Nat) (b : Byte) (o : OutBytes) : Option OutBytes :=
  if h : i < 64 then some (o.set i b h) else none

/-! ## Faults (R200 to R207) -/

/-- `raise Fault(code)` (R203): `FLT` takes the cause, "and the command ends there"; nothing else changes (R204). -/
def raiseFault (cause : Flt) (s : State) : Result := .next { s with flt := cause }

/-- A command is considered only when `FLT = 0`; "otherwise the block has no step" (R160, R205). -/
def accept (s : State) (body : Result) : Result :=
  if s.flt = .clear then body else .fault (.halted s.flt)

/-- The phase check of `ABSORB`, `ABSORBW` and `FINAL` (R160, check 2). -/
def whileAbsorbing (s : State) (body : Result) : Result :=
  match s.phase with
  | .uninit => raiseFault .notInit s
  | .done => raiseFault .finalized s
  | .absorbing => body

/-! ## Reset (R230) -/

/-- The reset event: `PHASE`, `FLT` and `SEQ` take their reset values, a permutation in progress is abandoned (R232), and
the lanes, `DSIZE`, `RATE`, `FILL` and `OUT` become unspecified: free values (R231, log 2). -/
def takeReset (s : State) : State :=
  { s with
    lanes := Vector.ofFn (Config.freeLane s.resets)
    dsize := Config.freeDsize s.resets
    rate := Config.freeRate s.resets
    fill := Config.freeFill s.resets
    phase := .uninit
    flt := .clear
    seq := Seq.start
    out := Vector.ofFn (Config.freeOut s.resets)
    engine := .idle
    resets := s.resets + 1 }

end Sys2Proof.Machine
end

