-- ==== Sys2Proof/Machine/Sequencer.lean ====
section
/-! DEFINITION. The sequencer, this block's program counter (R29, R141). -/

namespace Sys2Proof.Machine

/-- The last micro-operation of a permutation: `IOTA` of round 23, position 119 (R140). -/
def Seq.last : Seq := ⟨23, .iota⟩

/-- The advance of R141: `STEP + 1` within a round, then `(RND + 1, 0)`, and from `(23, 4)` back to `(0, 0)`. -/
def Seq.next (q : Seq) : Seq :=
  match q.step with
  | .theta => ⟨q.rnd, .rho⟩
  | .rho => ⟨q.rnd, .pi⟩
  | .pi => ⟨q.rnd, .chi⟩
  | .chi => ⟨q.rnd, .iota⟩
  | .iota => if h : q.rnd.val < 23 then ⟨⟨q.rnd.val + 1, by omega⟩, .theta⟩ else Seq.start

/-- After a micro-operation has written its result: `SEQ` advances, and after the last one "the permutation is complete and
control returns to the caller" (R141). -/
def advance (s : State) : State :=
  { s with seq := s.seq.next, engine := if s.seq = Seq.last then .idle else s.engine }

/-- The call of the engine: `seq <- (0, 0)` (R145). -/
def callEngine (s : State) : State := { s with seq := Seq.start, engine := .permuting }

end Sys2Proof.Machine
end

