-- ==== Sys2Proof/Machine/Steps.lean ====
section
/-! DEFINITION. The five step micro-operations θ ρ π χ ι (R110 to R133). Each lane function is a simultaneous assignment:
all 25 results are computed from the old lanes (R110). -/

namespace Sys2Proof.Machine

/-! ## Coordinates (R9). `Fin 5` makes all coordinate arithmetic modulo 5. -/

/-- `col = i mod 5`. -/
def colOf (i : Fin 25) : Fin 5 := ⟨i.val % 5, by omega⟩

/-- `row = i div 5`. -/
def rowOf (i : Fin 25) : Fin 5 := ⟨i.val / 5, by omega⟩

/-- `lane(col, row) = x[col + 5·row]`. -/
def laneAt (x : Lanes) (col row : Fin 5) : Lane := x[col.val + 5 * row.val]

/-- The 25 lanes whose lane at `(col, row)` is `f col row`. -/
def ofGrid (f : Fin 5 → Fin 5 → Lane) : Lanes := Vector.ofFn fun i => f (colOf i) (rowOf i)

/-! ## The mappings on the lanes -/

/-- Column parity `C[col]` (R111). -/
def parity (x : Lanes) (col : Fin 5) : Lane :=
  laneAt x col 0 ^^^ laneAt x col 1 ^^^ laneAt x col 2 ^^^ laneAt x col 3 ^^^ laneAt x col 4

/-- The correction word `D[col] = C[(col+4) mod 5] XOR rotl(C[(col+1) mod 5], 1)` (R112). -/
def correction (x : Lanes) (col : Fin 5) : Lane := parity x (col + 4) ^^^ rotl (parity x (col + 1)) 1

/-- θ (R112). -/
def thetaLanes (x : Lanes) : Lanes := ofGrid fun col row => laneAt x col row ^^^ correction x col

/-- ρ (R116). -/
def rhoLanes (x : Lanes) : Lanes := Vector.ofFn fun i => rotl x[i] rhoOff[i]

/-- π, in the gather form of R120: `x'[q] = x[PI_SRC[q]]`. -/
def piLanes (x : Lanes) : Lanes := Vector.ofFn fun q => x[piSrc[q]]

/-- χ (R124). -/
def chiLanes (x : Lanes) : Lanes :=
  ofGrid fun col row => laneAt x col row ^^^ (~~~ laneAt x (col + 1) row &&& laneAt x (col + 2) row)

/-- ι of round `rnd` (R128). -/
def iotaLanes (rnd : Fin 24) (x : Lanes) : Lanes := x.set 0 (x[0] ^^^ roundConst[rnd])

/-! ## The micro-operations on the state: apply the mapping, then advance the sequencer (R142) -/

/-- `THETA` (R112). -/
def runTheta (s : State) : State := advance { s with lanes := thetaLanes s.lanes }

/-- `RHO` (R116). -/
def runRho (s : State) : State := advance { s with lanes := rhoLanes s.lanes }

/-- `PI` (R120). -/
def runPi (s : State) : State := advance { s with lanes := piLanes s.lanes }

/-- `CHI` (R124). -/
def runChi (s : State) : State := advance { s with lanes := chiLanes s.lanes }

/-- `IOTA` (R128): its implicit operand is `RND`. -/
def runIota (s : State) : State := advance { s with lanes := iotaLanes s.seq.rnd s.lanes }

/-- The meaning of `THETA`: no exception, no flag (R110, R112). -/
def execTheta (s : State) : Result := .next (runTheta s)

/-- The meaning of `RHO` (R116). -/
def execRho (s : State) : Result := .next (runRho s)

/-- The meaning of `PI` (R120). -/
def execPi (s : State) : Result := .next (runPi s)

/-- The meaning of `CHI` (R124). -/
def execChi (s : State) : Result := .next (runChi s)

/-- The meaning of `IOTA` (R128). -/
def execIota (s : State) : Result := .next (runIota s)

end Sys2Proof.Machine
end

