-- ==== Sys2Proof/Machine/Engine.lean ====
section
/-! DEFINITION. The permutation engine: the microprogram of 120 micro-operations (R140, R142, R145), and the round and the
permutation as functions of the lanes (R143, R144). -/

namespace Sys2Proof.Machine

/-- Issue (R142): execute the micro-operation at `SEQ` and advance. -/
def issue (s : State) : State :=
  match s.seq.step with
  | .theta => runTheta s
  | .rho => runRho s
  | .pi => runPi s
  | .chi => runChi s
  | .iota => runIota s

/-- `n` issues in a row. -/
def issueTimes : Nat → State → State
  | 0, s => s
  | n + 1, s => issueTimes n (issue s)

/-- `KECCAK_F()` (R145): call the engine, then 120 times execute the micro-operation at `SEQ` and advance. -/
def keccakF (s : State) : State := issueTimes Config.microOps (callEngine s)

/-- `ROUND(x, rnd) = IOTA(CHI(PI(RHO(THETA(x)))), rnd)` (R143). -/
def roundLanes (x : Lanes) (rnd : Fin 24) : Lanes :=
  iotaLanes rnd (chiLanes (piLanes (rhoLanes (thetaLanes x))))

/-- `KF` (R144): round 0 first, round 23 last. -/
def keccakLanes (x : Lanes) : Lanes := (List.finRange 24).foldl roundLanes x

end Sys2Proof.Machine
end

