-- ==== Sys2Proof/Machine/Sponge.lean ====
section
/-! DEFINITION. The four commands of the sponge driver (R160 to R178). A command is one step (R64, R147); the permutation it
calls runs inside it. -/

namespace Sys2Proof.Machine

/-! ## `INIT` -/

/-- What an accepted `INIT alg` writes (R161). -/
def startHash (alg : Byte) (s : State) : State :=
  { s with fill := 0, rate := rateOf alg, dsize := alg, lanes := zeroLanes, phase := .absorbing }

/-- The meaning of `INIT alg` (R161, R162): accepted in every phase; the selector is checked. -/
def execInit (alg : Byte) (s : State) : Result :=
  accept s (if legalSelector alg then .next (startHash alg s) else raiseFault .badAlg s)

/-! ## `ABSORB` and `ABSORBW` -/

/-- `FILL <- FILL + n`, and at the block boundary `KECCAK_F()` and `FILL <- 0` (R163, R164, R168). -/
def advanceFill (n : Byte) (s : State) : State :=
  let s1 := { s with fill := s.fill + n }
  if s1.fill = s1.rate then { keccakF s1 with fill := 0 } else s1

/-- The meaning of `ABSORB b` (R163). -/
def execAbsorb (b : Byte) (s : State) : Result :=
  accept s (whileAbsorbing s
    (andThen (xorByte s.fill.toNat b s) fun s1 => .next (advanceFill 1 s1)))

/-- The meaning of `ABSORBW` (R168): after the phase, the fill index must be a multiple of 8. -/
def execAbsorbw (arg : Lane) (s : State) : Result :=
  accept s (whileAbsorbing s
    (if s.fill.toNat % 8 = 0 then
      andThen (xorWord s.fill.toNat (messageWord s.hostBE arg) s) fun s1 => .next (advanceFill 8 s1)
    else raiseFault .misaligned s))

/-! ## `FINAL` -/

/-- The padding injector `PAD` (R174): `0x06` at `FILL`, then `0x80` at `RATE − 1`. -/
def pad (s : State) : Result :=
  andThen (xorByte s.fill.toNat 0x06 s) fun s1 => xorByte (s1.rate - 1).toNat 0x80 s1

/-- One byte of the squeezer: `OutWrite(i, MemRead(i, 1))` (R172). -/
def squeezeByte (i : Nat) (s : State) : Result :=
  match memRead1 i s.lanes with
  | none => .fault (.noStAccess i 1)
  | some b =>
    match outWrite i b s.out with
    | none => .fault (.noOutByte i)
    | some o => .next { s with out := o }

/-- The state squeezer (R176) for the bytes below `n`, lowest first. -/
def squeezeBytes : Nat → State → Result
  | 0, s => .next s
  | n + 1, s => andThen (squeezeBytes n s) (squeezeByte n)

/-- The wipe (R177), then `PHASE <- DONE` (R172). -/
def wipe (s : State) : State := { s with lanes := zeroLanes, phase := .done }

/-- The meaning of `FINAL` (R172): pad, permute once more, squeeze `DSIZE` bytes, wipe. -/
def execFinal (s : State) : Result :=
  accept s (whileAbsorbing s
    (andThen (pad s) fun s1 =>
      andThen (squeezeBytes s1.dsize.toNat (keccakF s1)) fun s2 => .next (wipe s2)))

end Sys2Proof.Machine
end

