-- ==== Sys2Proof/Machine/Dispatch.lean ====
section
/-! DEFINITION. The dispatch: one arm per row of `spec/opcode_table.json`. -/

namespace Sys2Proof.Machine

def exec (i : Instr) (s : State) : Host.Outcome State Fault Refusal :=
  match i with
  | .init alg => Sys2Proof.Machine.execInit alg s
  | .absorb b => Sys2Proof.Machine.execAbsorb b s
  | .absorbw arg => Sys2Proof.Machine.execAbsorbw arg s
  | .final => Sys2Proof.Machine.execFinal s
  | .theta => Sys2Proof.Machine.execTheta s
  | .rho => Sys2Proof.Machine.execRho s
  | .pi => Sys2Proof.Machine.execPi s
  | .chi => Sys2Proof.Machine.execChi s
  | .iota => Sys2Proof.Machine.execIota s

end Sys2Proof.Machine
end

