-- ==== Sys2Proof/WellFormed.lean ====
section
/-! DEFINITION. Which instruction may come from where. Every operand field has its exact width in `Instr`, so the one
check left is the format: the host issues commands only, the sequencer micro-operations only (R88). -/

namespace Sys2Proof

/-- The format of an instruction's row in `spec/opcode_table.json`. -/
def Instr.format : Instr → Format
  | .init _ => .cmd
  | .absorb _ => .cmd
  | .absorbw _ => .cmd
  | .final => .cmd
  | .theta => .uop
  | .rho => .uop
  | .pi => .uop
  | .chi => .uop
  | .iota => .uop

/-- The instruction may be carried by a word of format `f`. -/
def Instr.wellFormed (f : Format) (i : Instr) : Bool := decide (i.format = f)

/-- A list of instructions the host may present: "The host cannot issue a micro-operation" (R88). -/
def hostProgram (p : List Instr) : Bool := p.all (Instr.wellFormed .cmd)

end Sys2Proof
end

