-- ==== Sys2Proof/Decode.lean ====
section
/-! DEFINITION. Decoding (R80 to R88), total on every word, and the encoder written from the same tables. -/

namespace Sys2Proof

/-- Why a word is no instruction. -/
inductive Reject where
  /-- The command word matches no row of the command table (R86). -/
  | illegalCommand
  /-- The micro-operation code is 5, 6 or 7, "never produced" (R88). -/
  | unusedMicroCode
  deriving DecidableEq, Repr

/-- What decoding answers. -/
inductive Decoded where
  | instr (i : Instr)
  | reject (why : Reject)
  deriving DecidableEq, Repr

/-- `OP = CW[71:64]` (R80). -/
def opField (cw : CommandWord) : Byte := cw.extractLsb' 64 8

/-- `ARG = CW[63:0]` (R80). -/
def argField (cw : CommandWord) : Lane := cw.extractLsb' 0 64

/-- `ARG[7:0]` (R82, R83). -/
def argLow (arg : Lane) : Byte := arg.extractLsb' 0 8

/-- `ARG[63:8]`, the bits that must be 0 in `INIT` and `ABSORB` (R81). -/
def argReserved (arg : Lane) : BitVec 56 := arg.extractLsb' 8 56

/-- Decoding a command word, in the order of R87. The test `FLT ≠ 0` of its first line is the machine's
(`Machine.accept`): it is about the state, not the word. -/
def decodeCommand (cw : CommandWord) : Decoded :=
  if opField cw = 0x01 ∧ argReserved (argField cw) = 0 then .instr (.init (argLow (argField cw)))
  else if opField cw = 0x02 ∧ argReserved (argField cw) = 0 then .instr (.absorb (argLow (argField cw)))
  else if opField cw = 0x03 then .instr (.absorbw (argField cw))
  else if opField cw = 0x04 ∧ argField cw = 0 then .instr .final
  else .reject .illegalCommand

/-- Decoding a micro-operation code (R88). -/
def decodeMicro (code : MicroCode) : Decoded :=
  if code = 0 then .instr .theta
  else if code = 1 then .instr .rho
  else if code = 2 then .instr .pi
  else if code = 3 then .instr .chi
  else if code = 4 then .instr .iota
  else .reject .unusedMicroCode

/-- Decoding either kind of word. -/
def decode : Encoded → Decoded
  | .cmd cw => decodeCommand cw
  | .uop code => decodeMicro code

/-- A command word from its two fields: `CW = OP ‖ ARG` (R80). -/
def commandWord (op : Byte) (arg : Lane) : CommandWord := op ++ arg

/-- The encoding tables R81 and R88, read the other way. -/
def encode : Instr → Encoded
  | .init alg => .cmd (commandWord 0x01 (alg.setWidth 64))
  | .absorb b => .cmd (commandWord 0x02 (b.setWidth 64))
  | .absorbw arg => .cmd (commandWord 0x03 arg)
  | .final => .cmd (commandWord 0x04 0)
  | .theta => .uop 0
  | .rho => .uop 1
  | .pi => .uop 2
  | .chi => .uop 3
  | .iota => .uop 4

/-- The word an opcode-table row's bits stand for. A row of at most 8 bits is a micro-operation: its code is the low three
bits, as in the sequencer's byte `SEQ[2:0] = STEP` (R29). A longer row, of at most 72 bits, is a command word, bit 0 the
least significant bit of `ARG` and bits 71 to 64 the opcode (R80): the word is taken whole from the port, so there is no
order of bytes to choose. -/
def tableWord (nbits w : Nat) : Encoded :=
  if nbits ≤ 8 then .uop (BitVec.ofNat 3 w) else .cmd (BitVec.ofNat 72 w)

/-- What the decoder reads from an opcode-table row's bits. -/
def decodeTableWord (nbits w : Nat) : Option Instr :=
  if nbits ≤ 72 then
    match decode (tableWord nbits w) with
    | .instr i => some i
    | .reject _ => none
  else none

end Sys2Proof
end

