-- ==== Sys2Proof/Machine/Flags.lean ====
section
/-! DEFINITION. The block has no status flags, condition codes or predicates (R35). What the host sees of the state are
three status outputs (R30), and the numeric codes of the registers they show (R27, R28, R29). -/

namespace Sys2Proof.Machine

/-- The 2-bit code of `PHASE` (R27). -/
def Phase.code : Phase → BitVec 2
  | .uninit => 0
  | .absorbing => 1
  | .done => 2

/-- The 3-bit code of `FLT` (R201). -/
def Flt.code : Flt → BitVec 3
  | .clear => 0
  | .illegalCmd => 1
  | .badAlg => 2
  | .notInit => 3
  | .finalized => 4
  | .misaligned => 5

/-- The 3-bit code of `STEP`, which is the micro-operation's code (R29, R88). -/
def StepName.code : StepName → MicroCode
  | .theta => 0
  | .rho => 1
  | .pi => 2
  | .chi => 3
  | .iota => 4

/-- The `STEP` of a code; codes 5, 6 and 7 have none (R88). -/
def StepName.ofCode (c : MicroCode) : Option StepName :=
  if c = 0 then some .theta
  else if c = 1 then some .rho
  else if c = 2 then some .pi
  else if c = 3 then some .chi
  else if c = 4 then some .iota
  else none

/-- `SEQ` as one 8-bit value: `SEQ[7:3] = RND`, `SEQ[2:0] = STEP` (R29). -/
def Seq.packed (q : Seq) : BitVec 8 := BitVec.ofNat 5 q.rnd.val ++ q.step.code

/-- `o_phase[1:0]` (R30). -/
def oPhase (s : State) : BitVec 2 := s.phase.code

/-- `o_fault[2:0]` (R30). -/
def oFault (s : State) : BitVec 3 := s.flt.code

/-- The 512 bits of `OUT`, byte `i` at bits `[8i+7 : 8i]`, the bytes below `n` only. -/
def digestBits (o : OutBytes) : Nat → BitVec 512
  | 0 => 0
  | n + 1 => digestBits o n ||| ((o[n]?.getD 0).setWidth 512 <<< (8 * n))

/-- `o_digest[511:0]` (R30). -/
def oDigest (s : State) : BitVec 512 := digestBits s.out 64

end Sys2Proof.Machine
end

