-- ==== Sys2Proof/Machine/Fetch.lean ====
section
/-! DEFINITION. What the next step acts on: the reset input (R230), the micro-operation at `SEQ` (R142), the command word the
host presents (R80), or nothing (R215). -/

namespace Sys2Proof.Machine

/-- What the block takes up next, with the state as the taking leaves it. -/
inductive Fetched where
  /-- `rst` is asserted. -/
  | reset (s : State)
  /-- A word to decode. -/
  | word (w : Encoded) (s : State)
  /-- No command is presented and no permutation is in progress. -/
  | waiting
  deriving DecidableEq, Repr

/-- Reset "overrides everything" (R207), a permutation in progress included (R232). Otherwise, while the engine runs, the
sequencer issues (R142) and no command is taken (R240). Otherwise the next command word is consumed whole (R80). -/
def fetch (s : State) : Fetched :=
  match s.inputs, s.engine with
  | .rst :: rest, _ => .reset { s with inputs := rest }
  | _, .permuting => .word (.uop s.seq.step.code) s
  | .command cw :: rest, .idle => .word (.cmd cw) { s with inputs := rest }
  | [], .idle => .waiting

/-- What a word that is no instruction does: an illegal command word faults "whatever the phase" (R86, R202), if the block
accepts a command at all (R87). -/
def rejected (why : Reject) (s : State) : Result :=
  match why with
  | .illegalCommand => accept s (raiseFault .illegalCmd s)
  | .unusedMicroCode => .fault .noMicroOp

/-- The host presents the command word `cw` next, to an idle engine. -/
def presentNext (cw : CommandWord) (s : State) : State :=
  { s with engine := .idle, inputs := .command cw :: s.inputs }

/-- The sequencer stands at the micro-operation of code `c`, in the round it is in, inside a permutation, and `rst` is not
asserted. A code no `STEP` has leaves the state as it is. -/
def sequenceNext (c : MicroCode) (s : State) : State :=
  match StepName.ofCode c with
  | some step =>
    { s with
      engine := .permuting
      seq := ⟨s.seq.rnd, step⟩
      inputs := s.inputs.dropWhile (· == .rst) }
  | none => s

end Sys2Proof.Machine
end

