-- ==== Sys2Proof/Machine/Step.lean ====
section
/-! DEFINITION. One step of the machine, and how an opcode-table word is put where the next step fetches. -/

namespace Sys2Proof.Machine

/-- One step: take a reset, or run the instruction the next word decodes to, or wait. -/
def step (s : State) : Host.Outcome State Fault Refusal :=
  match fetch s with
  | .reset s1 => .next (takeReset s1)
  | .waiting => .next s
  | .word w s1 =>
    match decode w with
    | .instr i => exec i s1
    | .reject why => rejected why s1

/-- The state with the instruction of an opcode-table row where the next step fetches: a micro-operation's code in `SEQ`,
inside a permutation; a command word at the port. -/
def State.withFetchWord (s : State) (nbits w : Nat) : State :=
  match tableWord nbits w with
  | .uop c => sequenceNext c s
  | .cmd cw => presentNext cw s

end Sys2Proof.Machine
end

