-- ==== Sys2Proof/Machine/Formula.lean ====
section
/-! DEFINITION. The closed formula of R179: pad, cut into blocks, absorb each by XOR and permutation, truncate. It is what a
hash run is held against; no instruction's meaning uses it. -/

namespace Sys2Proof.Machine

/-- The XOR of two 1600-bit states, lane by lane (R8). -/
def xorLanes (x y : Lanes) : Lanes := Vector.ofFn fun i => x[i] ^^^ y[i]

/-- The state whose byte `a` of `ST` is the `a`-th of the list, zero after the list's end (R51, `P_j ‖ 0^(200−r)`). -/
def lanesOfBytes (bytes : List Byte) : Lanes :=
  Vector.ofFn fun i => laneOfBytes fun k => bytes.getD (8 * i.val + k) 0

/-- The padding after `n` message bytes at rate `r`: `0x06`, zeros, `0x80`, up to the least multiple of `r` above `n`; the
single byte `0x86` where only one fits (R175, R179). -/
def padding (r n : Nat) : List Byte :=
  if r - n % r = 1 then [0x86] else 0x06 :: (List.replicate (r - n % r - 2) 0 ++ [0x80])

/-- Block `P_j` of the padded message (R179). -/
def messageBlock (r : Nat) (m : List Byte) (j : Nat) : List Byte :=
  ((m ++ padding r m.length).drop (j * r)).take r

/-- `S <- KF(S XOR (P_j ‖ 0^(200−r)))` (R179). -/
def absorbBlock (r : Nat) (m : List Byte) (x : Lanes) (j : Nat) : Lanes :=
  keccakLanes (xorLanes x (lanesOfBytes (messageBlock r m j)))

/-- The final `S`: the `floor(n/r) + 1` blocks in order, from `S = 0` (R179). -/
def spongeLanes (r : Nat) (m : List Byte) : Lanes :=
  (List.range (m.length / r + 1)).foldl (absorbBlock r m) zeroLanes

/-- The first `d` bytes of the byte view of a state (R51, R176). -/
def firstBytes (d : Nat) (x : Lanes) : List Byte := (List.range d).map fun a => (memRead1 a x).getD 0

/-- "The digest is the first `d` bytes of the final `S`", at rate `200 − 2d` (R179). -/
def sha3 (d : Nat) (m : List Byte) : List Byte := firstBytes d (spongeLanes (200 - 2 * d) m)

end Sys2Proof.Machine
end

