-- ==== Sys2Proof/Machine/Run.lean ====
section
/-! DEFINITION. Streams of commands: the pseudo-instructions (R91, R92, R93), a list of commands carried out in order (R64),
and the list as the host presents it (R80, R248). -/

namespace Sys2Proof.Machine

/-- The commands of a list take effect one at a time, in order, each on the state the one before left (R64); nothing runs
after a stop. -/
def execAll : List Instr → State → Result
  | [], s => .next s
  | i :: is, s => andThen (exec i s) (execAll is)

/-- `UPDATE b0, …, bn−1`: one `ABSORB` per byte; no byte, no command (R81, R91). -/
def update (bytes : List Byte) : List Instr := bytes.map .absorb

/-- The operand of `ABSORBW` for eight message bytes `m 0` to `m 7`, packed as `HOST_BE` says (R84, R92). -/
def packWord (hostBE : Bool) (m : Nat → Byte) : Lane :=
  if hostBE then laneOfBytes fun k => m (7 - k) else laneOfBytes m

/-- `UPDATEW`: as `UPDATE`, every eight bytes that start where the number `n` of bytes absorbed since `INIT` is a multiple of
8 replaced by one `ABSORBW` (R92). -/
def updateWords (hostBE : Bool) : Nat → List Byte → List Instr
  | n, m0 :: m1 :: m2 :: m3 :: m4 :: m5 :: m6 :: m7 :: rest =>
    if n % 8 = 0 then
      .absorbw (packWord hostBE fun k => [m0, m1, m2, m3, m4, m5, m6, m7].getD k 0) :: updateWords hostBE (n + 8) rest
    else .absorb m0 :: updateWords hostBE (n + 1) (m1 :: m2 :: m3 :: m4 :: m5 :: m6 :: m7 :: rest)
  | n, m0 :: rest => .absorb m0 :: updateWords hostBE (n + 1) rest
  | _, [] => []

/-- `HASH alg, bytes`: `INIT`, `UPDATE`, `FINAL` (R93). -/
def hash (alg : Byte) (bytes : List Byte) : List Instr := .init alg :: (update bytes ++ [.final])

/-- The command words of a list of commands, as the host presents them. The host has no word for a micro-operation (R88). -/
def present : List Instr → List HostInput
  | [] => []
  | i :: is =>
    match encode i with
    | .cmd cw => .command cw :: present is
    | .uop _ => present is

end Sys2Proof.Machine
end

