-- ==== Sys2Proof/Safety.lean ====
section
/-! DEFINITION. What holds between commands, and what a good end of a run is, in the terms the statements use. -/

namespace Sys2Proof.Machine

/-- The three context registers are as R26 says: `DSIZE ∈ {28, 32, 48, 64}`, `RATE = 200 − 2·DSIZE`, `FILL < RATE`. -/
abbrev ContextOk (s : State) : Prop :=
  s.dsize ∈ [(28 : Byte), 32, 48, 64] ∧ s.rate = 200 - 2 * s.dsize ∧ s.fill < s.rate

/-- What holds at every command boundary: the engine is idle and `SEQ = (0, 0)` (R29); past `UNINIT` the context registers
are legal (R26); in `DONE` all lanes are zero (R27). -/
abbrev BoundaryInv (s : State) : Prop :=
  s.engine = .idle ∧ s.seq = ⟨0, .theta⟩ ∧ (s.phase ≠ .uninit → ContextOk s) ∧
    (s.phase = .done → s.lanes = Vector.replicate 25 0)

/-- A command is being accepted in mid-message: no fault, `PHASE = ABSORBING`, a legal context. -/
abbrev Absorbing (s : State) : Prop := s.flt = .clear ∧ s.phase = .absorbing ∧ ContextOk s

/-- The run has ended well: "every word has been consumed and `FLT = 0`" (R249). -/
abbrev EndsWell (s : State) : Prop := s.inputs = [] ∧ s.flt = .clear

/-- `rst` is not what the host does next. -/
abbrev NoReset (s : State) : Prop := s.inputs.head? ≠ some .rst

end Sys2Proof.Machine
end

