-- ==== Sys2Proof/Certificates/Slice0/Obligations.lean ====
section
/-! DEFINITION. The statements for the provers, each a rule of the spec or rests on the sections its entry in
OBLIGATIONS.json cites. -/

open Sys2Proof Sys2Proof.Machine

/-! ## Encoding -/

/-- A few words written out from the spec's tables decode as the spec says (E1, E7, E10, E12, E6, E14, E15; R88). -/
def Obligations.SampleWordsDecode : Prop :=
  decode (.cmd 0x01000000000000001C) = .instr (.init 28) ∧
  decode (.cmd 0x020000000000000061) = .instr (.absorb 0x61) ∧
  decode (.cmd 0x030807060504030201) = .instr (.absorbw 0x0807060504030201) ∧
  decode (.cmd 0x040000000000000000) = .instr .final ∧
  decode (.cmd 0x010000000000000120) = .reject .illegalCommand ∧
  decode (.cmd 0x000000000000000000) = .reject .illegalCommand ∧
  decode (.cmd 0x050000000000000000) = .reject .illegalCommand ∧
  decode (.uop 0) = .instr .theta ∧ decode (.uop 1) = .instr .rho ∧ decode (.uop 2) = .instr .pi ∧
  decode (.uop 3) = .instr .chi ∧ decode (.uop 4) = .instr .iota ∧
  decode (.uop 5) = .reject .unusedMicroCode

/-- Decoding and encoding agree, both ways: a word decodes to an instruction exactly if it is that instruction's word. So
no operand bit is dropped and no word has two meanings. -/
def Obligations.DecodeReadsExactlyTheEncodings : Prop :=
  ∀ (w : Encoded) (i : Instr), decode w = .instr i ↔ w = encode i

/-- R86: an illegal command word faults with `F_ILLEGAL_CMD` whatever the phase, and only such a word is no command. The
condition is written on the bits of the word. What becomes of the word itself is not said. -/
def Obligations.IllegalCommandWordFaults : Prop :=
  ∀ (s : State) (cw : CommandWord) (rest : List HostInput),
    s.flt = .clear → s.engine = .idle → s.inputs = .command cw :: rest →
    let op := cw.extractLsb' 64 8
    let illegal := (op = 0x00 ∨ 0x05 ≤ op) ∨ ((op = 0x01 ∨ op = 0x02) ∧ cw.extractLsb' 8 56 ≠ 0) ∨
      (op = 0x04 ∧ cw.extractLsb' 0 64 ≠ 0)
    (illegal → ∃ q, step s = .next { s with flt := .illegalCmd, inputs := q }) ∧
    (¬ illegal → ∃ i, decode (.cmd cw) = .instr i)

/-! ## The step -/

/-- The command word the host presents to an idle block is taken off the port and the instruction it decodes to is run. -/
def Obligations.StepRunsThePresentedCommand : Prop :=
  ∀ (s : State) (cw : CommandWord) (rest : List HostInput) (i : Instr),
    s.engine = .idle → s.inputs = .command cw :: rest → decode (.cmd cw) = .instr i →
    step s = exec i { s with inputs := rest }

/-- R142: at `SEQ = (rnd, step)` the engine executes the micro-operation whose code is `step`. The advance of R141 is part of
`exec i`. That a permutation is in progress is the model's field `engine` (log 4). -/
def Obligations.StepRunsTheMicroOperationAtSeq : Prop :=
  ∀ (s : State) (i : Instr), s.engine = .permuting → NoReset s →
    decode (.uop s.seq.step.code) = .instr i → step s = exec i s

/-- Nothing presented and no permutation in progress: the block "holds all its state" (R215). That waiting is a step is the
model's choice (log 3). -/
def Obligations.IdleStepHoldsTheState : Prop :=
  ∀ s : State, s.engine = .idle → s.inputs = [] → step s = .next s

/-- R230, R232: a reset is taken whatever the state, in the middle of a permutation too. Nothing is said of the lanes,
`DSIZE`, `RATE`, `FILL` and `OUT`. That the parameter `HOST_BE` stays is the model's (log 5). -/
def Obligations.ResetIsTakenInEveryState : Prop :=
  ∀ (s : State) (rest : List HostInput), s.inputs = .rst :: rest →
    ∃ t, step s = .next t ∧ t.phase = .uninit ∧ t.flt = .clear ∧ t.seq = ⟨0, .theta⟩ ∧ t.engine = .idle ∧
      t.inputs = rest ∧ t.hostBE = s.hostBE

/-- R39: the values the spec gives for reset. -/
def Obligations.ResetStateIsUninitialised : Prop :=
  State.reset.phase = .uninit ∧ State.reset.flt = .clear ∧ State.reset.seq = ⟨0, .theta⟩

/-! ## Faults -/

/-- R205: while `FLT ≠ 0` no command is accepted, whatever it is, `INIT` included; nor is an illegal word. "The block has no
step at all" (R12) is the model's fault `halted`. -/
def Obligations.HaltedBlockAcceptsNoCommand : Prop :=
  ∀ s : State, s.flt ≠ .clear →
    (∀ i : Instr, i.format = .cmd → exec i s = .fault (.halted s.flt)) ∧
    (∀ (cw : CommandWord) (rest : List HostInput), s.engine = .idle → s.inputs = .command cw :: rest →
      step s = .fault (.halted s.flt))

/-- R202: when each cause is raised, exactly, by the step that takes a command word; the conditions are written on the bits
of the word. -/
def Obligations.EachCauseIsRaisedExactlyWhen : Prop :=
  ∀ (s : State) (cw : CommandWord) (rest : List HostInput),
    BoundaryInv s → s.flt = .clear → s.inputs = .command cw :: rest →
    let op := cw.extractLsb' 64 8
    let illegal := op ∉ [(1 : Byte), 2, 3, 4] ∨ (op ∈ [(1 : Byte), 2] ∧ cw.extractLsb' 8 56 ≠ 0) ∨
      (op = 4 ∧ cw.extractLsb' 0 64 ≠ 0)
    ∃ t, step s = .next t ∧
      (t.flt = .illegalCmd ↔ illegal) ∧
      (t.flt = .badAlg ↔ ¬ illegal ∧ op = 1 ∧ cw.extractLsb' 0 8 ∉ [(28 : Byte), 32, 48, 64]) ∧
      (t.flt = .notInit ↔ ¬ illegal ∧ op ∈ [(2 : Byte), 3, 4] ∧ s.phase = .uninit) ∧
      (t.flt = .finalized ↔ ¬ illegal ∧ op ∈ [(2 : Byte), 3, 4] ∧ s.phase = .done) ∧
      (t.flt = .misaligned ↔ op = 3 ∧ s.phase = .absorbing ∧ s.fill.toNat % 8 ≠ 0)

/-- R204: what faults leaves everything but `FLT` as it was, an instruction and a word at the port alike (the word's place
in the model's list of inputs apart, log 3), and no command executes after it. -/
def Obligations.FaultsArePrecise : Prop :=
  ∀ s t : State, s.flt = .clear → t.flt ≠ .clear →
    (∀ i : Instr, exec i s = .next t → t = { s with flt := t.flt }) ∧
    (s.engine = .idle → step s = .next t → t = { s with flt := t.flt, inputs := t.inputs }) ∧
    ∀ i : Instr, i.format = .cmd → exec i t = .fault (.halted t.flt)

/-- R206, R230: once non-zero, `FLT` keeps its cause; only a reset clears it. -/
def Obligations.FltIsStickyUntilReset : Prop :=
  ∀ s t : State, s.flt ≠ .clear → step s = .next t →
    t.flt = s.flt ∨ (s.inputs.head? = some .rst ∧ t.flt = .clear)

/-- R12, R160: at a command boundary with `FLT = 0`, every command answers a next state: it completes or raises its fault,
and "cannot fail midway". -/
def Obligations.CommandsNeverFailMidway : Prop :=
  ∀ (i : Instr) (s : State), i.format = .cmd → BoundaryInv s → s.flt = .clear → ∃ t, exec i s = .next t

/-! ## The commands' results -/

/-- R161: `INIT` in every phase, with a legal selector and with an illegal one; and its reserved bits. -/
def Obligations.InitStartsAHash : Prop :=
  ∀ (s : State) (alg : Byte), s.flt = .clear →
    (alg ∈ [(28 : Byte), 32, 48, 64] →
      exec (.init alg) s = .next { s with
        fill := 0, rate := 200 - 2 * alg, dsize := alg, lanes := Vector.replicate 25 0, phase := .absorbing }) ∧
    (alg ∉ [(28 : Byte), 32, 48, 64] → exec (.init alg) s = .next { s with flt := .badAlg }) ∧
    ∀ cw : CommandWord, cw.extractLsb' 64 8 = 0x01 → cw.extractLsb' 8 56 ≠ 0 →
      decode (.cmd cw) = .reject .illegalCommand

/-- R163: `ABSORB` in each phase, and its reserved bits. At the block boundary the permutation has run, so `SEQ` is `(0, 0)`.
Of the model's field `engine` nothing is said. -/
def Obligations.AbsorbXorsAByte : Prop :=
  ∀ (s : State) (b : Byte), s.flt = .clear →
    (s.phase = .uninit → exec (.absorb b) s = .next { s with flt := .notInit }) ∧
    (s.phase = .done → exec (.absorb b) s = .next { s with flt := .finalized }) ∧
    (s.phase = .absorbing → ContextOk s → ∃ (e : Engine) (h : s.fill.toNat / 8 < 25),
      let x := s.lanes.set (s.fill.toNat / 8)
        (s.lanes[s.fill.toNat / 8] ^^^ (b.setWidth 64 <<< (8 * (s.fill.toNat % 8))))
      exec (.absorb b) s = .next (
        if s.fill + 1 = s.rate then { s with lanes := keccakLanes x, fill := 0, seq := ⟨0, .theta⟩, engine := e }
        else { s with lanes := x, fill := s.fill + 1 })) ∧
    ∀ cw : CommandWord, cw.extractLsb' 64 8 = 0x02 → cw.extractLsb' 8 56 ≠ 0 →
      decode (.cmd cw) = .reject .illegalCommand

/-- R168: `ABSORBW` in each phase, with an aligned fill index and with another; it has no reserved bits. Of the model's field
`engine` nothing is said. -/
def Obligations.AbsorbwXorsAWord : Prop :=
  ∀ (s : State) (arg : Lane), s.flt = .clear →
    (s.phase = .uninit → exec (.absorbw arg) s = .next { s with flt := .notInit }) ∧
    (s.phase = .done → exec (.absorbw arg) s = .next { s with flt := .finalized }) ∧
    (s.phase = .absorbing → s.fill.toNat % 8 ≠ 0 → exec (.absorbw arg) s = .next { s with flt := .misaligned }) ∧
    (s.phase = .absorbing → s.fill.toNat % 8 = 0 → ContextOk s → ∃ (e : Engine) (h : s.fill.toNat / 8 < 25),
      let w := if s.hostBE then bswap64 arg else arg
      let x := s.lanes.set (s.fill.toNat / 8) (s.lanes[s.fill.toNat / 8] ^^^ w)
      exec (.absorbw arg) s = .next (
        if s.fill + 8 = s.rate then { s with lanes := keccakLanes x, fill := 0, seq := ⟨0, .theta⟩, engine := e }
        else { s with lanes := x, fill := s.fill + 8 })) ∧
    ∀ cw : CommandWord, cw.extractLsb' 64 8 = 0x03 → decode (.cmd cw) = .instr (.absorbw (cw.extractLsb' 0 64))

/-- R84: message byte `mk` of an `ABSORBW` operand is `ARG[8k+7 : 8k]`, or `ARG[63−8k : 56−8k]` with `HOST_BE = 1`, and it
is byte `k` of the lane value. -/
def Obligations.WordOperandUnpacks : Prop :=
  ∀ (arg : Lane) (k : Nat), k < 8 →
    (messageWord false arg).extractLsb' (8 * k) 8 = arg.extractLsb' (8 * k) 8 ∧
    (messageWord true arg).extractLsb' (8 * k) 8 = arg.extractLsb' (56 - 8 * k) 8

/-- R167: byte `k` of `bswap64(w)` is byte `7 − k` of `w`, and twice is the identity. -/
def Obligations.ByteSwapReversesTheBytes : Prop :=
  ∀ w : Lane, (∀ k < 8, (bswap64 w).extractLsb' (8 * k) 8 = w.extractLsb' (8 * (7 - k)) 8) ∧
    bswap64 (bswap64 w) = w

/-- R174: the padding injector as lane operations: `0x06` at byte `FILL`, `0x80` at the top byte of lane `RATE/8 − 1`. -/
def Obligations.PaddingInjectorMarksTwoBytes : Prop :=
  ∀ s : State, ContextOk s → ∃ (h1 : s.fill.toNat / 8 < 25) (h2 : s.rate.toNat / 8 - 1 < 25),
    let x := s.lanes.set (s.fill.toNat / 8)
      (s.lanes[s.fill.toNat / 8] ^^^ ((0x06 : Lane) <<< (8 * (s.fill.toNat % 8))))
    pad s = .next { s with
      lanes := x.set (s.rate.toNat / 8 - 1) (x[s.rate.toNat / 8 - 1] ^^^ 0x8000000000000000) }

/-- The overlap case of R175: where `FILL = RATE − 1` both masks fall on one byte, which is XORed with `0x86`. -/
def Obligations.PaddingMasksCompose : Prop :=
  ∀ s : State, ContextOk s → s.fill = s.rate - 1 → pad s = xorByte (s.rate - 1).toNat 0x86 s

/-- R172, R176, R177: `FINAL` in each phase, and its reserved bits. `y` is the padded state permuted; `OUT[i]`, below
`DSIZE`, is byte `i` of its little-endian byte view. Of the model's field `engine` nothing is said. -/
def Obligations.FinalDeliversTheDigest : Prop :=
  ∀ s : State, s.flt = .clear →
    (s.phase = .uninit → exec .final s = .next { s with flt := .notInit }) ∧
    (s.phase = .done → exec .final s = .next { s with flt := .finalized }) ∧
    (s.phase = .absorbing → ContextOk s →
      ∃ (e : Engine) (h1 : s.fill.toNat / 8 < 25) (h2 : (s.rate.toNat - 1) / 8 < 25),
      let x := s.lanes.set (s.fill.toNat / 8)
        (s.lanes[s.fill.toNat / 8] ^^^ ((0x06 : Lane) <<< (8 * (s.fill.toNat % 8))))
      let y := keccakLanes (x.set ((s.rate.toNat - 1) / 8)
        (x[(s.rate.toNat - 1) / 8] ^^^ ((0x80 : Lane) <<< (8 * ((s.rate.toNat - 1) % 8)))))
      exec .final s = .next { s with
        lanes := Vector.replicate 25 0
        phase := .done
        seq := ⟨0, .theta⟩
        engine := e
        out := Vector.ofFn fun i : Fin 64 =>
          if i.val < s.dsize.toNat then y[i.val / 8].extractLsb' (8 * (i.val % 8)) 8 else s.out[i] }) ∧
    ∀ cw : CommandWord, cw.extractLsb' 64 8 = 0x04 → cw.extractLsb' 0 64 ≠ 0 →
      decode (.cmd cw) = .reject .illegalCommand

/-- R169: one `ABSORBW` leaves exactly the state that eight `ABSORB`s of its bytes leave, the permutation included. -/
def Obligations.AbsorbwEqualsEightAbsorbs : Prop :=
  ∀ (s : State) (arg : Lane), Absorbing s → s.fill.toNat % 8 = 0 →
    exec (.absorbw arg) s =
      execAll ((List.range 8).map fun k => .absorb ((messageWord s.hostBE arg).extractLsb' (8 * k) 8)) s

/-- R92, R165: the word path never changes the final state, however long the message. -/
def Obligations.WordPathEqualsBytePath : Prop :=
  ∀ (bytes : List Byte) (s : State), Absorbing s →
    execAll (updateWords s.hostBE s.fill.toNat bytes) s = execAll (update bytes) s

/-- R165: chunking invariance. A message absorbed in any chunks, empty ones among them, gives what absorbing it whole
gives. -/
def Obligations.ChunkingIsInvisible : Prop :=
  ∀ (chunks : List (List Byte)) (s : State),
    chunks.foldl (fun r chunk => andThen r (execAll (update chunk))) (.next s) = execAll (update chunks.flatten) s

/-- After `INIT` and `n` message bytes, the fill index is `n mod RATE` and the block still absorbs. R180 marks its counts
[derived: from rules R163, R168, R172]. -/
def Obligations.FillCountsTheMessageBytes : Prop :=
  ∀ (s : State) (alg : Byte) (bytes : List Byte), s.flt = .clear → alg ∈ [(28 : Byte), 32, 48, 64] →
    ∃ t, execAll (.init alg :: update bytes) s = .next t ∧ Absorbing t ∧ t.dsize = alg ∧
      t.fill.toNat = bytes.length % (200 - 2 * alg.toNat)

/-- A hash run (R249), from any idle state with `FLT = 0`, ends well with the digest of the closed formula of R179, which the
spec marks [derived: from rules R161, R163, R172 to R176]. The formula's `KF` is the model's `keccakLanes`; the host presents
the words in the model's list of inputs (log 3). -/
def Obligations.HashRunComputesSha3 : Prop :=
  ∀ (s : State) (alg : Byte) (bytes : List Byte),
    s.flt = .clear → s.engine = .idle → alg ∈ [(28 : Byte), 32, 48, 64] → s.inputs = present (hash alg bytes) →
    ∃ t : State, Host.Core.run Sys2Proof.core s.inputs.length s = .next t ∧ EndsWell t ∧ t.phase = .done ∧
      t.lanes = Vector.replicate 25 0 ∧ t.out.toList.take alg.toNat = sha3 alg.toNat bytes ∧
      t.out.toList.drop alg.toNat = s.out.toList.drop alg.toNat

/-- R177: after a `FINAL` that completes, all 200 bytes of `ST` are zero. -/
def Obligations.FinalWipesTheState : Prop :=
  ∀ s t : State, s.phase = .absorbing → exec .final s = .next t →
    ∀ a < 200, memRead1 a t.lanes = some 0

/-- R248: while a message is absorbed the host sees nothing of it. Two blocks that differ in anything but `PHASE`, `FLT` and
`OUT`, given any two bytes, show the same three outputs. -/
def Obligations.AbsorbShowsTheHostNothing : Prop :=
  ∀ (s s' : State) (b b' : Byte), Absorbing s → Absorbing s' → s.out = s'.out →
    ∃ t t', exec (.absorb b) s = .next t ∧ exec (.absorb b') s' = .next t' ∧
      oPhase t = oPhase t' ∧ oFault t = oFault t' ∧ oDigest t = oDigest t'

/-! ## The micro-operations. After each, `SEQ` advances (R141, SequencerWalksThePositions). Of the model's field `engine`
the five results say nothing; SequencerWalksThePositions does. -/

/-- R112: `THETA`. `C` is the column parity, `D[col] = C[(col+4) mod 5] XOR rotl(C[(col+1) mod 5], 1)`. -/
def Obligations.ThetaMixesColumnParities : Prop :=
  ∀ s : State, ∃ (x : Lanes) (e : Engine),
    exec .theta s = .next { s with lanes := x, seq := s.seq.next, engine := e } ∧
    let C : Fin 5 → Lane := fun c =>
      s.lanes[c.val] ^^^ s.lanes[c.val + 5] ^^^ s.lanes[c.val + 10] ^^^ s.lanes[c.val + 15] ^^^ s.lanes[c.val + 20]
    ∀ (i : Fin 25) (c : Fin 5), c.val = i.val % 5 →
      x[i] = s.lanes[i] ^^^ (C (c + 4) ^^^ (C (c + 1)).rotateLeft 1)

/-- R116: `RHO`. -/
def Obligations.RhoRotatesEachLane : Prop :=
  ∀ s : State, ∃ (x : Lanes) (e : Engine),
    exec .rho s = .next { s with lanes := x, seq := s.seq.next, engine := e } ∧
    ∀ i : Fin 25, x[i] = s.lanes[i].rotateLeft rhoOff[i]

/-- R120: `PI`, by the table's scatter and by coordinates. -/
def Obligations.PiMovesTheLanes : Prop :=
  ∀ s : State, ∃ (x : Lanes) (e : Engine),
    exec .pi s = .next { s with lanes := x, seq := s.seq.next, engine := e } ∧
    (∀ p : Fin 25, x[piDst[p]] = s.lanes[p]) ∧
    (∀ q : Fin 25, x[q] = s.lanes[piSrc[q]]) ∧
    ∀ col row : Fin 5, laneAt x col row = laneAt s.lanes (col + 3 * row) col

/-- R124: `CHI`, the three lanes of the right side taken from the row as it was. -/
def Obligations.ChiMixesEachRow : Prop :=
  ∀ s : State, ∃ (x : Lanes) (e : Engine),
    exec .chi s = .next { s with lanes := x, seq := s.seq.next, engine := e } ∧
    ∀ col row : Fin 5, laneAt x col row =
      laneAt s.lanes col row ^^^ (~~~ laneAt s.lanes (col + 1) row &&& laneAt s.lanes (col + 2) row)

/-- R128: `IOTA`, on lane 0 and only lane 0. -/
def Obligations.IotaXorsTheRoundConstant : Prop :=
  ∀ s : State, ∃ (x : Lanes) (e : Engine),
    exec .iota s = .next { s with lanes := x, seq := s.seq.next, engine := e } ∧
    x[0] = s.lanes[0] ^^^ roundConst[s.seq.rnd] ∧ ∀ i : Fin 25, i.val ≠ 0 → x[i] = s.lanes[i]

/-- R110: a micro-operation touches nothing but the lanes and the sequencer, and cannot fault. -/
def Obligations.MicroOperationFrame : Prop :=
  ∀ (i : Instr) (s : State), i.format = .uop → ∃ t, exec i s = .next t ∧
    t = { s with lanes := t.lanes, seq := t.seq, engine := t.engine }

/-- R140, R141: every micro-operation advances the sequencer to the next of the 120 positions `5·RND + STEP`. After the last
one the model's field `engine` is idle, after any other as before (log 4). -/
def Obligations.SequencerWalksThePositions : Prop :=
  ∀ (i : Instr) (s t : State), i.format = .uop → exec i s = .next t →
    let position : Seq → Nat := fun q => 5 * q.rnd.val + q.step.code.toNat
    position s.seq < 120 ∧ position t.seq = (position s.seq + 1) % 120 ∧
      t.engine = if position s.seq = 119 then .idle else s.engine

/-- R145: `KECCAK_F()` is `x <- KF(x)` "and nothing else", with `SEQ = (0, 0)` on return; `KF` is the 24 rounds of R144. That
the model's field `engine` is idle then is log 4. -/
def Obligations.KeccakFIsTwentyFourRounds : Prop :=
  ∀ s : State, keccakF s = { s with lanes := keccakLanes s.lanes, seq := ⟨0, .theta⟩, engine := .idle }

/-- R147: the permutation taken as one operation and as 120 steps of the machine agree. -/
def Obligations.PermutationAgreesStepByStep : Prop :=
  ∀ s : State, NoReset s → Host.Core.run Sys2Proof.core 120 (callEngine s) = .next (keccakF s)

/-- The fused θ/ρ/π pass gives what the three steps give. R132 gives the formula marked [derived: from rules R112, R116,
R120]. -/
def Obligations.FusedPassAgrees : Prop :=
  ∀ (x : Lanes) (i : Fin 25),
    (piLanes (rhoLanes (thetaLanes x)))[piDst[i]] = (x[i] ^^^ correction x (colOf i)).rotateLeft rhoOff[i]

/-- θ, ρ and π are linear over XOR: laws R113, R117 and R121 mark [derived] from the rules of the three steps. -/
def Obligations.LinearMappings : Prop :=
  ∀ x y : Lanes,
    thetaLanes (xorLanes x y) = xorLanes (thetaLanes x) (thetaLanes y) ∧
    rhoLanes (xorLanes x y) = xorLanes (rhoLanes x) (rhoLanes y) ∧
    piLanes (xorLanes x y) = xorLanes (piLanes x) (piLanes y)

/-- θ and χ commute with a rotation of every lane by the same amount: laws R113 and R125 mark [derived]. -/
def Obligations.ThetaAndChiCommuteWithRotation : Prop :=
  ∀ (x : Lanes) (n : Nat),
    let turn : Lanes → Lanes := fun z => Vector.ofFn fun i : Fin 25 => z[i].rotateLeft n
    thetaLanes (turn x) = turn (thetaLanes x) ∧ chiLanes (turn x) = turn (chiLanes x)

/-- The inverse of ρ, the order of π, and ι twice: laws R117, R121 and R129 mark [derived]. -/
def Obligations.InversesOfRhoPiIota : Prop :=
  ∀ (x : Lanes) (rnd : Fin 24),
    (∀ i : Fin 25, (rhoLanes x)[i].rotateLeft ((64 - rhoOff[i]) % 64) = x[i]) ∧
    piLanes^[24] x = x ∧
    iotaLanes rnd (iotaLanes rnd x) = x

/-- The permutation is a bijection on the states of 1600 bits, which R146 marks [derived: each of the five mappings is a
bijection]. -/
def Obligations.KeccakFIsABijection : Prop := Function.Bijective keccakLanes

/-- The tables follow the algorithms the spec gives for them, as its own general knowledge (R31, R32, R33): the triangular walk of `RHO_OFF`, the
coordinate formula of `PI_DST` and its inverse, the shift register and the bit positions of `RC`. -/
def Obligations.RomTablesFollowTheirGenerators : Prop :=
  (rhoOff[0] = 0 ∧ ∀ t : Fin 24, ∀ p : Fin 25,
    (fun q : Fin 5 × Fin 5 => (q.2, 2 * q.1 + 3 * q.2))^[t.val] (1, 0) = (colOf p, rowOf p) →
      rhoOff[p] = ((t.val + 1) * (t.val + 2) / 2) % 64) ∧
  (∀ p : Fin 25, piDst[p].val = (rowOf p).val + 5 * ((2 * (colOf p).val + 3 * (rowOf p).val) % 5)) ∧
  (∀ p : Fin 25, piSrc[piDst[p]] = p ∧ (piDst[p] = p ↔ p = 0)) ∧
  (∀ r : Fin 24, roundConst[r] &&& 0x800000008000808B = roundConst[r]) ∧
  (∀ (r : Fin 24) (j : Fin 7), roundConst[r].getLsbD (2 ^ j.val - 1) =
    ((fun R : Byte => (R <<< 1) ^^^ (if R.getLsbD 7 then 0x71 else 0))^[j.val + 7 * r.val] 1).getLsbD 0)

/-! ## The byte view -/

/-- R56: `MemXor` as a lane operation, for one byte and for eight. -/
def Obligations.MemXorIsALaneXor : Prop :=
  ∀ x : Lanes,
    (∀ (a : Nat) (v : Byte) (h : a < 200),
      memXor1 a v x = some (x.set (a / 8) (x[a / 8] ^^^ (v.setWidth 64 <<< (8 * (a % 8)))))) ∧
    (∀ (a : Nat) (v : Lane) (h : a < 200), a % 8 = 0 →
      memXor8 a v x = some (x.set (a / 8) (x[a / 8] ^^^ v)))

/-- A byte written reads back, and every other byte of `ST` reads as before: R54, which the spec marks [derived: from rule
R51]. -/
def Obligations.ByteWriteThenRead : Prop :=
  ∀ (x y : Lanes) (a c : Nat) (b : Byte), memWrite1 a b x = some y →
    memRead1 c y = if c = a then some b else memRead1 c x

/-- An aligned read of eight bytes is the little-endian composition of the eight byte reads: R53, which the spec marks
[derived: from rule R51]. -/
def Obligations.WordReadIsLittleEndian : Prop :=
  ∀ (x : Lanes) (a : Nat) (w : Lane), memRead8 a x = some w →
    ∃ m : Nat → Byte, (∀ k < 8, memRead1 (a + k) x = some (m k)) ∧
      w.toNat = (m 0).toNat + 2 ^ 8 * (m 1).toNat + 2 ^ 16 * (m 2).toNat + 2 ^ 24 * (m 3).toNat +
        2 ^ 32 * (m 4).toNat + 2 ^ 40 * (m 5).toNat + 2 ^ 48 * (m 6).toNat + 2 ^ 56 * (m 7).toNat

/-- R30: the three status outputs. -/
def Obligations.OutputsShowTheState : Prop :=
  ∀ s : State,
    (∀ i : Fin 64, (oDigest s).extractLsb' (8 * i.val) 8 = s.out[i]) ∧
    ((oPhase s).toNat = match s.phase with | .uninit => 0 | .absorbing => 1 | .done => 2) ∧
    ((oFault s).toNat = match s.flt with
      | .clear => 0 | .illegalCmd => 1 | .badAlg => 2 | .notInit => 3 | .finalized => 4 | .misaligned => 5)

/-! ## Frames -/

/-- `INIT` leaves `OUT`, the sequencer, the inputs and the parameter; it zeroes every byte of `ST` or none. -/
def Obligations.InitFrame : Prop :=
  ∀ (s t : State) (alg : Byte), exec (.init alg) s = .next t →
    t = { s with fill := t.fill, rate := t.rate, dsize := t.dsize, lanes := t.lanes, phase := t.phase, flt := t.flt } ∧
    ((t.flt = .clear ∧ ∀ a < 200, memRead1 a t.lanes = some 0) ∨ ∀ a : Nat, memRead1 a t.lanes = memRead1 a s.lanes)

/-- `ABSORB` leaves `OUT`, `DSIZE`, `RATE`, `PHASE`, the inputs and the parameter; unless it completes a block, it leaves
every byte of `ST` but the one at address `FILL`, and the sequencer. -/
def Obligations.AbsorbFrame : Prop :=
  ∀ (s t : State) (b : Byte), exec (.absorb b) s = .next t →
    t = { s with lanes := t.lanes, fill := t.fill, flt := t.flt, seq := t.seq, engine := t.engine } ∧
    (s.fill + 1 ≠ s.rate → t.seq = s.seq ∧ t.engine = s.engine ∧
      ∀ a : Nat, a ≠ s.fill.toNat → memRead1 a t.lanes = memRead1 a s.lanes)

/-- `ABSORBW` likewise, the eight bytes from address `FILL` on. -/
def Obligations.AbsorbwFrame : Prop :=
  ∀ (s t : State) (arg : Lane), exec (.absorbw arg) s = .next t →
    t = { s with lanes := t.lanes, fill := t.fill, flt := t.flt, seq := t.seq, engine := t.engine } ∧
    (s.fill + 8 ≠ s.rate → t.seq = s.seq ∧ t.engine = s.engine ∧
      ∀ a : Nat, ¬ (s.fill.toNat ≤ a ∧ a < s.fill.toNat + 8) → memRead1 a t.lanes = memRead1 a s.lanes)

/-- `FINAL` leaves `DSIZE`, `RATE`, `FILL` (R178), the inputs and the parameter, and the bytes of `OUT` from `DSIZE` on
(R34, R176); it leaves every byte of `ST` zero (R177) or, where it faults, as before. -/
def Obligations.FinalFrame : Prop :=
  ∀ s t : State, exec .final s = .next t →
    t = { s with
      lanes := t.lanes, phase := t.phase, flt := t.flt, seq := t.seq, engine := t.engine, out := t.out } ∧
    (∀ i : Fin 64, s.dsize.toNat ≤ i.val → t.out[i] = s.out[i]) ∧
    ((t.flt = .clear ∧ ∀ a < 200, memRead1 a t.lanes = some 0) ∨ ∀ a : Nat, memRead1 a t.lanes = memRead1 a s.lanes)

/-- R62: no command XORs into the capacity region: neither the padding of `FINAL`, nor an `ABSORB` or `ABSORBW` that
completes no block, changes a byte at an address from `RATE` on. -/
def Obligations.CapacityRegionIsNeverXored : Prop :=
  ∀ (s t : State) (a : Nat), Absorbing s → s.rate.toNat ≤ a →
    (pad s = .next t → memRead1 a t.lanes = memRead1 a s.lanes) ∧
    (∀ b, s.fill + 1 ≠ s.rate → exec (.absorb b) s = .next t → memRead1 a t.lanes = memRead1 a s.lanes) ∧
    (∀ w, s.fill + 8 ≠ s.rate → exec (.absorbw w) s = .next t → memRead1 a t.lanes = memRead1 a s.lanes)

/-- R21, R23, R24, R25, R27, R34, R6: which instructions write which register. -/
def Obligations.EachRegisterHasItsWriters : Prop :=
  ∀ (i : Instr) (s t : State), exec i s = .next t →
    (t.dsize ≠ s.dsize ∨ t.rate ≠ s.rate → ∃ alg, i = .init alg) ∧
    (t.fill ≠ s.fill → (∃ alg, i = .init alg) ∨ (∃ b, i = .absorb b) ∨ ∃ w, i = .absorbw w) ∧
    (t.phase ≠ s.phase → (∃ alg, i = .init alg ∧ t.phase = .absorbing) ∨ (i = .final ∧ t.phase = .done)) ∧
    (t.out ≠ s.out → i = .final) ∧
    (t.flt ≠ s.flt → s.flt = .clear ∧ i.format = .cmd) ∧
    t.hostBE = s.hostBE ∧ t.inputs = s.inputs ∧ t.resets = s.resets

/-! ## Invariants -/

/-- Every step, from every state in which it holds, keeps the invariant of command boundaries: R29, R27, and R26, which the
spec marks [derived: from rules R23 to R25, R161, R163, R168, R178]. -/
def Obligations.StepKeepsTheBoundaryInvariant : Prop :=
  ∀ s t : State, BoundaryInv s → step s = .next t → BoundaryInv t

/-- The reset state meets it. -/
def Obligations.ResetMeetsTheBoundaryInvariant : Prop := BoundaryInv State.reset
end

