-- ==== Sys2Proof/Laws/Bytes.lean ====
section
/-! SUPPORT. Bytes of a lane, rotation and byte reversal, bit by bit. -/

namespace Sys2Proof.Machine

/-! ## Bytes of a lane (R51, R54) -/

theorem getLsbD_byteOf (w : Lane) (k i : Nat) :
    (byteOf w k).getLsbD i = (decide (i < 8) && w.getLsbD (8 * k + i)) := by
  rw [byteOf, BitVec.getLsbD_extractLsb']

theorem getLsbD_byteAt (b : Byte) (k i : Nat) :
    (byteAt b k).getLsbD i = (decide (i < 64) && (decide (8 * k ≤ i) && b.getLsbD (i - 8 * k))) := by
  rw [byteAt, BitVec.getLsbD_shiftLeft, BitVec.getLsbD_setWidth]
  by_cases h : i < 64 <;> by_cases h2 : i < 8 * k
  · simp [h, h2, show ¬ 8 * k ≤ i by omega]
  · simp [h, h2, show 8 * k ≤ i by omega, show i - 8 * k < 64 by omega]
  · simp [h]
  · simp [h]

theorem getLsbD_allOnes_byte (i : Nat) : (0xFF : Byte).getLsbD i = decide (i < 8) :=
  BitVec.getLsbD_allOnes (v := 8)

/-- Bits `[8k+7 : 8k]` are the new byte's, the other bits the lane's (R54). -/
theorem getLsbD_setByteOf (w : Lane) (k : Nat) (b : Byte) {i : Nat} (hi : i < 64) :
    (setByteOf w k b).getLsbD i = if 8 * k ≤ i ∧ i < 8 * k + 8 then b.getLsbD (i - 8 * k) else w.getLsbD i := by
  rw [setByteOf, BitVec.getLsbD_or, BitVec.getLsbD_and, BitVec.getLsbD_not, getLsbD_byteAt, getLsbD_byteAt,
    getLsbD_allOnes_byte]
  by_cases h1 : 8 * k ≤ i
  · by_cases h2 : i < 8 * k + 8
    · simp [h1, h2, hi, show i - 8 * k < 8 by omega]
    · have hb : b.getLsbD (i - 8 * k) = false := BitVec.getLsbD_of_ge _ _ (by omega)
      simp [h1, h2, hi, hb, show ¬ i - 8 * k < 8 by omega]
  · simp [h1, hi]

theorem byteOf_setByteOf_same (w : Lane) {k : Nat} (hk : k < 8) (b : Byte) : byteOf (setByteOf w k b) k = b := by
  apply BitVec.eq_of_getLsbD_eq
  intro i hi
  rw [getLsbD_byteOf, getLsbD_setByteOf _ _ _ (by omega)]
  simp [hi]

theorem byteOf_setByteOf_ne (w : Lane) {k j : Nat} (hj : j < 8) (h : j ≠ k) (b : Byte) :
    byteOf (setByteOf w k b) j = byteOf w j := by
  apply BitVec.eq_of_getLsbD_eq
  intro i hi
  rw [getLsbD_byteOf, getLsbD_setByteOf _ _ _ (by omega), getLsbD_byteOf, if_neg (by omega)]

/-- Writing back a byte XORed is the XOR of the lane with that byte in place (R56). -/
theorem setByteOf_xor (w : Lane) (k : Nat) (v : Byte) : setByteOf w k (byteOf w k ^^^ v) = w ^^^ byteAt v k := by
  apply BitVec.eq_of_getLsbD_eq
  intro i hi
  rw [getLsbD_setByteOf _ _ _ hi, BitVec.getLsbD_xor, BitVec.getLsbD_xor, getLsbD_byteAt, getLsbD_byteOf]
  split
  · rename_i h
    simp [h.1, hi, show i - 8 * k < 8 by omega, show 8 * k + (i - 8 * k) = i by omega]
  · rename_i h
    by_cases h1 : 8 * k ≤ i
    · rw [BitVec.getLsbD_of_ge v _ (by omega)]; simp
    · simp [h1]

/-- A lane is its eight bytes (R51). -/
theorem lane_ext {w v : Lane} (h : ∀ k < 8, byteOf w k = byteOf v k) : w = v := by
  apply BitVec.eq_of_getLsbD_eq
  intro i hi
  have hb := congrArg (fun b => b.getLsbD (i % 8)) (h (i / 8) (by omega))
  simpa only [getLsbD_byteOf, show 8 * (i / 8) + i % 8 = i by omega, show i % 8 < 8 by omega, decide_true,
    Bool.true_and] using hb

theorem getLsbD_laneOfBytes (m : Nat → Byte) {i : Nat} (hi : i < 64) :
    (laneOfBytes m).getLsbD i = (m (i / 8)).getLsbD (i % 8) := by
  unfold laneOfBytes
  simp only [BitVec.getLsbD_append]
  have hk : i / 8 < 8 := by omega
  have hi' : i = 8 * (i / 8) + i % 8 := by omega
  have hr : i % 8 < 8 := by omega
  generalize i / 8 = k at hk hi' ⊢
  generalize i % 8 = r at hr hi' ⊢
  subst hi'
  interval_cases k
  all_goals
    repeat rw [if_neg (by omega)]
    try rw [if_pos (by omega)]
    congr 1; try omega

@[simp] theorem byteOf_laneOfBytes (m : Nat → Byte) {k : Nat} (hk : k < 8) : byteOf (laneOfBytes m) k = m k := by
  apply BitVec.eq_of_getLsbD_eq
  intro i hi
  rw [getLsbD_byteOf, getLsbD_laneOfBytes _ (by omega), show (8 * k + i) / 8 = k by omega,
    show (8 * k + i) % 8 = i by omega]
  simp [hi]

theorem byteOf_xor (w v : Lane) (k : Nat) : byteOf (w ^^^ v) k = byteOf w k ^^^ byteOf v k := by
  apply BitVec.eq_of_getLsbD_eq
  intro i hi
  rw [BitVec.getLsbD_xor, getLsbD_byteOf, getLsbD_byteOf, getLsbD_byteOf, BitVec.getLsbD_xor]
  simp [hi]

theorem byteOf_byteAt (b : Byte) {k j : Nat} (hj : j < 8) : byteOf (byteAt b k) j = if j = k then b else 0 := by
  apply BitVec.eq_of_getLsbD_eq
  intro i hi
  rw [getLsbD_byteOf, getLsbD_byteAt]
  by_cases h : j = k
  · subst h; simp [hi, show 8 * j + i < 64 by omega]
  · rw [if_neg h]
    by_cases h1 : 8 * k ≤ 8 * j + i
    · rw [BitVec.getLsbD_of_ge b _ (by omega)]; simp
    · simp [h1]

/-! ## Rotation (R8) -/

theorem rotl_eq_rotateLeft (a : Lane) {n : Nat} (hn : n < 64) : rotl a n = a.rotateLeft n := by
  rw [rotl, BitVec.rotateLeft_def, Nat.mod_eq_of_lt hn]

/-- Bit `i` of `a` becomes bit `(i + n) mod 64` (R8), read at the result. -/
theorem getLsbD_rotateLeft_lane (a : Lane) (n : Nat) {i : Nat} (hi : i < 64) :
    (a.rotateLeft n).getLsbD i = a.getLsbD ((i + (64 - n % 64)) % 64) := by
  rw [BitVec.getLsbD_rotateLeft]
  have hn : n % 64 < 64 := Nat.mod_lt _ (by decide)
  by_cases h : i < n % 64
  · simp only [h, decide_true, cond_true]; congr 1; omega
  · simp only [h, decide_false, cond_false, hi, decide_true, Bool.true_and]; congr 1; omega

theorem rotateLeft_xor (a b : Lane) (n : Nat) : (a ^^^ b).rotateLeft n = a.rotateLeft n ^^^ b.rotateLeft n := by
  apply BitVec.eq_of_getLsbD_eq
  intro i hi
  rw [BitVec.getLsbD_xor]
  iterate 3 rw [getLsbD_rotateLeft_lane _ _ hi]
  rw [BitVec.getLsbD_xor]

theorem rotateLeft_and (a b : Lane) (n : Nat) : (a &&& b).rotateLeft n = a.rotateLeft n &&& b.rotateLeft n := by
  apply BitVec.eq_of_getLsbD_eq
  intro i hi
  rw [BitVec.getLsbD_and]
  iterate 3 rw [getLsbD_rotateLeft_lane _ _ hi]
  rw [BitVec.getLsbD_and]

theorem rotateLeft_not (a : Lane) (n : Nat) : (~~~ a).rotateLeft n = ~~~ a.rotateLeft n := by
  apply BitVec.eq_of_getLsbD_eq
  intro i hi
  rw [BitVec.getLsbD_not]
  iterate 2 rw [getLsbD_rotateLeft_lane _ _ hi]
  rw [BitVec.getLsbD_not]
  simp [hi, Nat.mod_lt]

theorem rotateLeft_rotateLeft (a : Lane) (m n : Nat) : (a.rotateLeft m).rotateLeft n = a.rotateLeft (m + n) := by
  apply BitVec.eq_of_getLsbD_eq
  intro i hi
  rw [getLsbD_rotateLeft_lane _ _ hi, getLsbD_rotateLeft_lane _ _ (Nat.mod_lt _ (by decide)),
    getLsbD_rotateLeft_lane _ _ hi]
  congr 1; omega

theorem rotateLeft_of_mod {a : Lane} {n : Nat} (h : n % 64 = 0) : a.rotateLeft n = a := by
  apply BitVec.eq_of_getLsbD_eq
  intro i hi
  rw [getLsbD_rotateLeft_lane _ _ hi]
  congr 1; omega

end Sys2Proof.Machine
end

