-- ==== Sys2Proof/Laws/State.lean ====
section
/-! SUPPORT. What each named update of the state does to each field: true by definition, so that no later proof unfolds a
record update. -/

namespace Sys2Proof.Machine

/-! ## `advance` -/

@[simp] theorem advance_lanes (s : State) : (advance s).lanes = s.lanes := rfl
@[simp] theorem advance_dsize (s : State) : (advance s).dsize = s.dsize := rfl
@[simp] theorem advance_rate (s : State) : (advance s).rate = s.rate := rfl
@[simp] theorem advance_fill (s : State) : (advance s).fill = s.fill := rfl
@[simp] theorem advance_phase (s : State) : (advance s).phase = s.phase := rfl
@[simp] theorem advance_flt (s : State) : (advance s).flt = s.flt := rfl
@[simp] theorem advance_seq (s : State) : (advance s).seq = s.seq.next := rfl
@[simp] theorem advance_out (s : State) : (advance s).out = s.out := rfl
@[simp] theorem advance_engine (s : State) : (advance s).engine = if s.seq = Seq.last then .idle else s.engine := rfl
@[simp] theorem advance_inputs (s : State) : (advance s).inputs = s.inputs := rfl
@[simp] theorem advance_hostBE (s : State) : (advance s).hostBE = s.hostBE := rfl
@[simp] theorem advance_resets (s : State) : (advance s).resets = s.resets := rfl

/-! ## `callEngine` -/

@[simp] theorem callEngine_lanes (s : State) : (callEngine s).lanes = s.lanes := rfl
@[simp] theorem callEngine_dsize (s : State) : (callEngine s).dsize = s.dsize := rfl
@[simp] theorem callEngine_rate (s : State) : (callEngine s).rate = s.rate := rfl
@[simp] theorem callEngine_fill (s : State) : (callEngine s).fill = s.fill := rfl
@[simp] theorem callEngine_phase (s : State) : (callEngine s).phase = s.phase := rfl
@[simp] theorem callEngine_flt (s : State) : (callEngine s).flt = s.flt := rfl
@[simp] theorem callEngine_seq (s : State) : (callEngine s).seq = Seq.start := rfl
@[simp] theorem callEngine_out (s : State) : (callEngine s).out = s.out := rfl
@[simp] theorem callEngine_engine (s : State) : (callEngine s).engine = .permuting := rfl
@[simp] theorem callEngine_inputs (s : State) : (callEngine s).inputs = s.inputs := rfl
@[simp] theorem callEngine_hostBE (s : State) : (callEngine s).hostBE = s.hostBE := rfl
@[simp] theorem callEngine_resets (s : State) : (callEngine s).resets = s.resets := rfl

/-! ## `startHash` -/

@[simp] theorem startHash_lanes (alg : Byte) (s : State) : (startHash alg s).lanes = zeroLanes := rfl
@[simp] theorem startHash_dsize (alg : Byte) (s : State) : (startHash alg s).dsize = alg := rfl
@[simp] theorem startHash_rate (alg : Byte) (s : State) : (startHash alg s).rate = rateOf alg := rfl
@[simp] theorem startHash_fill (alg : Byte) (s : State) : (startHash alg s).fill = 0 := rfl
@[simp] theorem startHash_phase (alg : Byte) (s : State) : (startHash alg s).phase = .absorbing := rfl
@[simp] theorem startHash_flt (alg : Byte) (s : State) : (startHash alg s).flt = s.flt := rfl
@[simp] theorem startHash_seq (alg : Byte) (s : State) : (startHash alg s).seq = s.seq := rfl
@[simp] theorem startHash_out (alg : Byte) (s : State) : (startHash alg s).out = s.out := rfl
@[simp] theorem startHash_engine (alg : Byte) (s : State) : (startHash alg s).engine = s.engine := rfl
@[simp] theorem startHash_inputs (alg : Byte) (s : State) : (startHash alg s).inputs = s.inputs := rfl
@[simp] theorem startHash_hostBE (alg : Byte) (s : State) : (startHash alg s).hostBE = s.hostBE := rfl
@[simp] theorem startHash_resets (alg : Byte) (s : State) : (startHash alg s).resets = s.resets := rfl

/-! ## `wipe` -/

@[simp] theorem wipe_lanes (s : State) : (wipe s).lanes = zeroLanes := rfl
@[simp] theorem wipe_dsize (s : State) : (wipe s).dsize = s.dsize := rfl
@[simp] theorem wipe_rate (s : State) : (wipe s).rate = s.rate := rfl
@[simp] theorem wipe_fill (s : State) : (wipe s).fill = s.fill := rfl
@[simp] theorem wipe_phase (s : State) : (wipe s).phase = .done := rfl
@[simp] theorem wipe_flt (s : State) : (wipe s).flt = s.flt := rfl
@[simp] theorem wipe_seq (s : State) : (wipe s).seq = s.seq := rfl
@[simp] theorem wipe_out (s : State) : (wipe s).out = s.out := rfl
@[simp] theorem wipe_engine (s : State) : (wipe s).engine = s.engine := rfl
@[simp] theorem wipe_inputs (s : State) : (wipe s).inputs = s.inputs := rfl
@[simp] theorem wipe_hostBE (s : State) : (wipe s).hostBE = s.hostBE := rfl
@[simp] theorem wipe_resets (s : State) : (wipe s).resets = s.resets := rfl

/-! ## `takeReset` -/

@[simp] theorem takeReset_lanes (s : State) : (takeReset s).lanes = Vector.ofFn (Config.freeLane s.resets) := rfl
@[simp] theorem takeReset_dsize (s : State) : (takeReset s).dsize = Config.freeDsize s.resets := rfl
@[simp] theorem takeReset_rate (s : State) : (takeReset s).rate = Config.freeRate s.resets := rfl
@[simp] theorem takeReset_fill (s : State) : (takeReset s).fill = Config.freeFill s.resets := rfl
@[simp] theorem takeReset_phase (s : State) : (takeReset s).phase = .uninit := rfl
@[simp] theorem takeReset_flt (s : State) : (takeReset s).flt = .clear := rfl
@[simp] theorem takeReset_seq (s : State) : (takeReset s).seq = Seq.start := rfl
@[simp] theorem takeReset_out (s : State) : (takeReset s).out = Vector.ofFn (Config.freeOut s.resets) := rfl
@[simp] theorem takeReset_engine (s : State) : (takeReset s).engine = .idle := rfl
@[simp] theorem takeReset_inputs (s : State) : (takeReset s).inputs = s.inputs := by simp only [takeReset]
@[simp] theorem takeReset_hostBE (s : State) : (takeReset s).hostBE = s.hostBE := by simp only [takeReset]
@[simp] theorem takeReset_resets (s : State) : (takeReset s).resets = s.resets + 1 := rfl

/-! ## `presentNext` -/

@[simp] theorem presentNext_lanes (cw : CommandWord) (s : State) : (presentNext cw s).lanes = s.lanes := rfl
@[simp] theorem presentNext_dsize (cw : CommandWord) (s : State) : (presentNext cw s).dsize = s.dsize := rfl
@[simp] theorem presentNext_rate (cw : CommandWord) (s : State) : (presentNext cw s).rate = s.rate := rfl
@[simp] theorem presentNext_fill (cw : CommandWord) (s : State) : (presentNext cw s).fill = s.fill := rfl
@[simp] theorem presentNext_phase (cw : CommandWord) (s : State) : (presentNext cw s).phase = s.phase := rfl
@[simp] theorem presentNext_flt (cw : CommandWord) (s : State) : (presentNext cw s).flt = s.flt := rfl
@[simp] theorem presentNext_seq (cw : CommandWord) (s : State) : (presentNext cw s).seq = s.seq := rfl
@[simp] theorem presentNext_out (cw : CommandWord) (s : State) : (presentNext cw s).out = s.out := rfl
@[simp] theorem presentNext_engine (cw : CommandWord) (s : State) : (presentNext cw s).engine = .idle := rfl
@[simp] theorem presentNext_inputs (cw : CommandWord) (s : State) : (presentNext cw s).inputs = .command cw :: s.inputs := rfl
@[simp] theorem presentNext_hostBE (cw : CommandWord) (s : State) : (presentNext cw s).hostBE = s.hostBE := rfl
@[simp] theorem presentNext_resets (cw : CommandWord) (s : State) : (presentNext cw s).resets = s.resets := rfl

end Sys2Proof.Machine
end

