-- ==== Sys2Proof/Laws/Engine.lean ====
section
/-! SUPPORT. The micro-operations and the engine: what an issue writes, and how issues compose. -/

namespace Sys2Proof.Machine

/-- An issue changes the lanes and the sequencer, nothing else (R110). -/
theorem issue_frame (s : State) :
    issue s = { s with lanes := (issue s).lanes, seq := s.seq.next, engine := (advance s).engine } := by
  unfold issue
  cases s.seq.step <;> rfl

theorem issueTimes_add (m n : Nat) (s : State) : issueTimes (m + n) s = issueTimes n (issueTimes m s) := by
  induction m generalizing s with
  | zero => rw [Nat.zero_add, issueTimes]
  | succ m ih => rw [Nat.succ_add, issueTimes, ih, issueTimes]

/-- Whatever the number of issues, the registers outside the engine are as before (R145). -/
theorem issueTimes_frame (n : Nat) (s : State) :
    issueTimes n s = { s with
      lanes := (issueTimes n s).lanes, seq := (issueTimes n s).seq, engine := (issueTimes n s).engine } := by
  induction n generalizing s with
  | zero => rfl
  | succ n ih =>
    rw [issueTimes, ih (issue s), issue_frame s]

/-- The permutation reads and writes none of the driver's registers (R145). -/
theorem keccakF_frame (s : State) :
    keccakF s = { s with lanes := (keccakF s).lanes, seq := (keccakF s).seq, engine := (keccakF s).engine } := by
  unfold keccakF
  rw [issueTimes_frame, callEngine]

@[simp] theorem keccakF_dsize (s : State) : (keccakF s).dsize = s.dsize := by rw [keccakF_frame]
@[simp] theorem keccakF_rate (s : State) : (keccakF s).rate = s.rate := by rw [keccakF_frame]
@[simp] theorem keccakF_fill (s : State) : (keccakF s).fill = s.fill := by rw [keccakF_frame]
@[simp] theorem keccakF_phase (s : State) : (keccakF s).phase = s.phase := by rw [keccakF_frame]
@[simp] theorem keccakF_flt (s : State) : (keccakF s).flt = s.flt := by rw [keccakF_frame]
@[simp] theorem keccakF_out (s : State) : (keccakF s).out = s.out := by rw [keccakF_frame]
@[simp] theorem keccakF_inputs (s : State) : (keccakF s).inputs = s.inputs := by rw [keccakF_frame]
@[simp] theorem keccakF_hostBE (s : State) : (keccakF s).hostBE = s.hostBE := by rw [keccakF_frame]
@[simp] theorem keccakF_resets (s : State) : (keccakF s).resets = s.resets := by rw [keccakF_frame]

/-! ## One round of five issues (R143) -/

theorem seq_eta {s : State} {q : Seq} (h : s.seq = q) : s = { s with seq := q } := by subst h; rfl

/-- Five issues from the start of a round are the round, and leave the sequencer at the next one. -/
theorem issueTimes_round (s : State) (rnd : Fin 24) (h : s.seq = ⟨rnd, .theta⟩) :
    issueTimes 5 s = { s with
      lanes := roundLanes s.lanes rnd
      seq := Seq.next ⟨rnd, .iota⟩
      engine := if rnd = 23 then .idle else s.engine } := by
  rw [seq_eta h]
  simp only [issueTimes, issue, runTheta, runRho, runPi, runChi, runIota, advance, Seq.next, Seq.last, Seq.mk.injEq,
    reduceCtorEq, and_false, if_false, and_true, roundLanes]

end Sys2Proof.Machine
end

