-- ==== Sys2Proof/Laws/Ops.lean ====
section
/-! SUPPORT. One lemma per shared operation that says once everything it can answer. -/

namespace Sys2Proof.Machine

/-! ## Sequencing -/

@[simp] theorem andThen_next (s : State) (f : State → Result) : andThen (.next s) f = f s := rfl

@[simp] theorem andThen_fault (e : Fault) (f : State → Result) : andThen (.fault e) f = .fault e := rfl

@[simp] theorem andThen_refused (e : Refusal) (f : State → Result) : andThen (.refused e) f = .refused e := rfl

/-- A sequence answers a next state exactly where both parts do. -/
theorem andThen_eq_next {r : Result} {f : State → Result} {t : State} :
    andThen r f = .next t ↔ ∃ s, r = .next s ∧ f s = .next t := by
  cases r <;> simp

theorem andThen_assoc (r : Result) (f g : State → Result) :
    andThen (andThen r f) g = andThen r fun s => andThen (f s) g := by
  cases r <;> rfl

/-! ## Checks of a command -/

@[simp] theorem accept_clear {s : State} (h : s.flt = .clear) (body : Result) : accept s body = body := by
  simp [accept, h]

@[simp] theorem accept_halted {s : State} (h : s.flt ≠ .clear) (body : Result) :
    accept s body = .fault (.halted s.flt) := by
  simp [accept, h]

/-- A command answers a next state only where `FLT = 0`. -/
theorem accept_eq_next {s t : State} {body : Result} :
    accept s body = .next t ↔ s.flt = .clear ∧ body = .next t := by
  by_cases h : s.flt = .clear <;> simp [accept, h]

/-- The phase check goes on in `ABSORBING` and raises its fault elsewhere. -/
theorem whileAbsorbing_eq_next {s t : State} {body : Result} :
    whileAbsorbing s body = .next t ↔
      (s.phase = .absorbing ∧ body = .next t) ∨
      (s.phase = .uninit ∧ t = { s with flt := .notInit }) ∨
      (s.phase = .done ∧ t = { s with flt := .finalized }) := by
  cases h : s.phase <;> simp [whileAbsorbing, h, raiseFault, eq_comm]

@[simp] theorem whileAbsorbing_absorbing {s : State} (h : s.phase = .absorbing) (body : Result) :
    whileAbsorbing s body = body := by
  simp [whileAbsorbing, h]

/-! ## Accesses to `ST` and `OUT` -/

theorem memRead1_of_lt {a : Nat} (h : a < 200) (x : Lanes) : memRead1 a x = some (byteOf x[a / 8] (a % 8)) := by
  simp [memRead1, h]

theorem memRead1_of_ge {a : Nat} (h : 200 ≤ a) (x : Lanes) : memRead1 a x = none := by
  simp [memRead1, Nat.not_lt.mpr h]

/-- A byte XOR on the state writes the lanes, or the address does not exist. -/
theorem xorByte_cases (a : Nat) (v : Byte) (s : State) :
    (a < 200 ∧ ∃ x, memXor1 a v s.lanes = some x ∧ xorByte a v s = .next { s with lanes := x }) ∨
    (200 ≤ a ∧ xorByte a v s = .fault (.noStAccess a 1)) := by
  by_cases h : a < 200
  · left; refine ⟨h, ?_⟩
    simp [xorByte, memXor1, memRead1, memWrite1, h]
  · right; exact ⟨by omega, by simp [xorByte, memXor1, memRead1, h]⟩

/-- A word XOR on the state writes the lanes, or the access is not defined. -/
theorem xorWord_cases (a : Nat) (v : Lane) (s : State) :
    (a % 8 = 0 ∧ a < 200 ∧ ∃ x, memXor8 a v s.lanes = some x ∧ xorWord a v s = .next { s with lanes := x }) ∨
    (¬ (a % 8 = 0 ∧ a < 200) ∧ xorWord a v s = .fault (.noStAccess a 8)) := by
  by_cases h : a % 8 = 0 ∧ a < 200
  · left; refine ⟨h.1, h.2, ?_⟩
    simp [xorWord, memXor8, memRead8, memWrite8, h]
  · right; exact ⟨h, by simp only [xorWord, memXor8, memRead8, dif_neg h]; rfl⟩

/-- One byte of the squeezer writes one byte of `OUT`, at an address that both spaces have. -/
theorem squeezeByte_of_lt {i : Nat} (h : i < 64) (s : State) :
    squeezeByte i s = .next { s with out := s.out.set i (byteOf s.lanes[i / 8] (i % 8)) } := by
  have h2 : i < 200 := by omega
  simp [squeezeByte, memRead1, outWrite, h, h2]

/-- What `n` bytes of the squeezer do: `OUT` below `n` is the byte view of the lanes, the rest as before (R176). -/
theorem squeezeBytes_of_le {n : Nat} (h : n ≤ 64) (s : State) :
    squeezeBytes n s = .next { s with
      out := Vector.ofFn fun i : Fin 64 =>
        if i.val < n then byteOf s.lanes[i.val / 8] (i.val % 8) else s.out[i] } := by
  induction n with
  | zero =>
    have hout : (Vector.ofFn fun i : Fin 64 =>
        if i.val < 0 then byteOf s.lanes[i.val / 8] (i.val % 8) else s.out[i]) = s.out := by
      ext i hi : 1
      simp
    rw [hout, squeezeBytes]
  | succ n ih =>
    rw [squeezeBytes, ih (by omega), andThen_next, squeezeByte_of_lt (by omega)]
    have hout : (Vector.ofFn fun i : Fin 64 =>
          if i.val < n then byteOf s.lanes[i.val / 8] (i.val % 8) else s.out[i]).set n
            (byteOf s.lanes[n / 8] (n % 8)) =
        Vector.ofFn fun i : Fin 64 =>
          if i.val < n + 1 then byteOf s.lanes[i.val / 8] (i.val % 8) else s.out[i] := by
      ext i hi : 1
      rw [Vector.getElem_set]
      by_cases hn : n = i
      · subst hn; simp
      · by_cases hlt : i < n
        · simp only [hn, if_false, Vector.getElem_ofFn, hlt, if_true, show i < n + 1 by omega]
        · simp only [hn, if_false, Vector.getElem_ofFn, hlt, show ¬ i < n + 1 by omega]
    rw [← hout]

/-- Past `OUT`'s 64 bytes the squeezer stops. -/
theorem squeezeBytes_next_le {n : Nat} {s t : State} (h : squeezeBytes n s = .next t) : n ≤ 64 := by
  induction n generalizing t with
  | zero => omega
  | succ n ih =>
    rw [squeezeBytes, andThen_eq_next] at h
    obtain ⟨s1, h1, h2⟩ := h
    have := ih h1
    by_contra hc
    have : n = 64 := by omega
    subst this
    simp [squeezeByte, memRead1, outWrite] at h2

end Sys2Proof.Machine
end

