-- ==== Sys2Proof/Laws/Commands.lean ====
section
/-! SUPPORT. One inversion lemma per command: if it answers a next state, then one of these cases holds. -/

namespace Sys2Proof.Machine

/-- `FILL` moves, and the permutation runs at the block boundary only (R163, R168). -/
theorem advanceFill_eq (n : Byte) (s : State) :
    advanceFill n s =
      if s.fill + n = s.rate then { keccakF { s with fill := s.fill + n } with fill := 0 }
      else { s with fill := s.fill + n } := rfl

/-- Off the block boundary only `FILL` moves. -/
theorem advanceFill_of_ne {n : Byte} {s : State} (h : s.fill + n ≠ s.rate) :
    advanceFill n s = { s with fill := s.fill + n } := by
  rw [advanceFill_eq, if_neg h]

/-- `FILL` and what the permutation writes may change, nothing else. -/
theorem advanceFill_frame (n : Byte) (s : State) :
    advanceFill n s = { s with
      lanes := (advanceFill n s).lanes, fill := (advanceFill n s).fill, seq := (advanceFill n s).seq,
      engine := (advanceFill n s).engine } := by
  rw [advanceFill_eq]
  split
  · rw [keccakF_frame]
  · rfl

/-- `INIT` completes or raises `F_BAD_ALG` (R161). -/
theorem execInit_cases {alg : Byte} {s t : State} (h : execInit alg s = .next t) :
    s.flt = .clear ∧
      ((legalSelector alg = true ∧ t = startHash alg s) ∨
       (legalSelector alg = false ∧ t = { s with flt := .badAlg })) := by
  rw [execInit, accept_eq_next] at h
  obtain ⟨hf, h⟩ := h
  refine ⟨hf, ?_⟩
  cases hl : legalSelector alg <;> simp [hl, raiseFault] at h <;> simp [h]

/-- `ABSORB` raises a phase fault, or XORs its byte and moves `FILL` (R163). -/
theorem execAbsorb_cases {b : Byte} {s t : State} (h : execAbsorb b s = .next t) :
    s.flt = .clear ∧
      ((s.phase = .uninit ∧ t = { s with flt := .notInit }) ∨
       (s.phase = .done ∧ t = { s with flt := .finalized }) ∨
       (s.phase = .absorbing ∧ ∃ x, memXor1 s.fill.toNat b s.lanes = some x ∧
          t = advanceFill 1 { s with lanes := x })) := by
  rw [execAbsorb, accept_eq_next, whileAbsorbing_eq_next] at h
  obtain ⟨hf, ⟨hp, h⟩ | h | h⟩ := h
  · obtain ⟨-, x, hx, he⟩ | ⟨-, he⟩ := xorByte_cases s.fill.toNat b s <;> rw [he] at h
    · rw [andThen_next] at h
      cases h
      exact ⟨hf, .inr (.inr ⟨hp, x, hx, rfl⟩)⟩
    · cases h
  · exact ⟨hf, .inl h⟩
  · exact ⟨hf, .inr (.inl h)⟩

/-- `ABSORBW` raises a phase fault or `F_MISALIGNED`, or XORs its word and moves `FILL` (R168). -/
theorem execAbsorbw_cases {arg : Lane} {s t : State} (h : execAbsorbw arg s = .next t) :
    s.flt = .clear ∧
      ((s.phase = .uninit ∧ t = { s with flt := .notInit }) ∨
       (s.phase = .done ∧ t = { s with flt := .finalized }) ∨
       (s.phase = .absorbing ∧ s.fill.toNat % 8 ≠ 0 ∧ t = { s with flt := .misaligned }) ∨
       (s.phase = .absorbing ∧ s.fill.toNat % 8 = 0 ∧
          ∃ x, memXor8 s.fill.toNat (messageWord s.hostBE arg) s.lanes = some x ∧
            t = advanceFill 8 { s with lanes := x })) := by
  rw [execAbsorbw, accept_eq_next, whileAbsorbing_eq_next] at h
  obtain ⟨hf, ⟨hp, h⟩ | h | h⟩ := h
  · by_cases ha : s.fill.toNat % 8 = 0
    · rw [if_pos ha] at h
      obtain ⟨-, -, x, hx, he⟩ | ⟨-, he⟩ := xorWord_cases s.fill.toNat (messageWord s.hostBE arg) s <;> rw [he] at h
      · rw [andThen_next] at h
        cases h
        exact ⟨hf, .inr (.inr (.inr ⟨hp, ha, x, hx, rfl⟩))⟩
      · cases h
    · rw [if_neg ha, raiseFault] at h
      cases h
      exact ⟨hf, .inr (.inr (.inl ⟨hp, ha, rfl⟩))⟩
  · exact ⟨hf, .inl h⟩
  · exact ⟨hf, .inr (.inl h)⟩

/-- The padding injector writes the lanes only (R174). -/
theorem pad_cases {s t : State} (h : pad s = .next t) :
    ∃ x y, memXor1 s.fill.toNat 0x06 s.lanes = some x ∧ memXor1 (s.rate - 1).toNat 0x80 x = some y ∧
      t = { s with lanes := y } := by
  rw [pad, andThen_eq_next] at h
  obtain ⟨s1, h1, h2⟩ := h
  obtain ⟨-, x, hx, he⟩ | ⟨-, he⟩ := xorByte_cases s.fill.toNat 0x06 s <;> rw [he] at h1 <;> cases h1
  obtain ⟨-, y, hy, he⟩ | ⟨-, he⟩ := xorByte_cases (s.rate - 1).toNat 0x80 { s with lanes := x } <;>
    rw [he] at h2 <;> cases h2
  exact ⟨x, y, hx, hy, rfl⟩

/-- `FINAL` raises a phase fault, or pads, permutes, squeezes and wipes (R172). -/
theorem execFinal_cases {s t : State} (h : execFinal s = .next t) :
    s.flt = .clear ∧
      ((s.phase = .uninit ∧ t = { s with flt := .notInit }) ∨
       (s.phase = .done ∧ t = { s with flt := .finalized }) ∨
       (s.phase = .absorbing ∧ ∃ s1, pad s = .next s1 ∧ s.dsize.toNat ≤ 64 ∧
          ∃ s2, squeezeBytes s1.dsize.toNat (keccakF s1) = .next s2 ∧ t = wipe s2)) := by
  rw [execFinal, accept_eq_next, whileAbsorbing_eq_next] at h
  obtain ⟨hf, ⟨hp, h⟩ | h | h⟩ := h
  · obtain ⟨s1, h1, h⟩ := andThen_eq_next.mp h
    obtain ⟨s2, h2, h⟩ := andThen_eq_next.mp h
    cases h
    have hd : s1.dsize = s.dsize := by
      obtain ⟨x, y, -, -, rfl⟩ := pad_cases h1
      rfl
    exact ⟨hf, .inr (.inr ⟨hp, s1, h1, hd ▸ squeezeBytes_next_le h2, s2, h2, rfl⟩)⟩
  · exact ⟨hf, .inl h⟩
  · exact ⟨hf, .inr (.inl h)⟩

end Sys2Proof.Machine
end

