-- ==== Sys2Proof/Laws/Decode.lean ====
section
/-! SUPPORT. The fields of an encoded command word read back. -/

namespace Sys2Proof

@[simp] theorem opField_commandWord (op : Byte) (arg : Lane) : opField (commandWord op arg) = op := by
  apply BitVec.eq_of_getLsbD_eq
  intro i hi
  rw [opField, commandWord, BitVec.getLsbD_extractLsb', BitVec.getLsbD_append]
  simp [hi]

@[simp] theorem argField_commandWord (op : Byte) (arg : Lane) : argField (commandWord op arg) = arg := by
  apply BitVec.eq_of_getLsbD_eq
  intro i hi
  rw [argField, commandWord, BitVec.getLsbD_extractLsb', BitVec.getLsbD_append]
  simp [hi]

/-- A byte operand leaves the reserved bits of `ARG` zero (R81). -/
@[simp] theorem argReserved_setWidth (b : Byte) : argReserved (b.setWidth 64) = 0 := by
  apply BitVec.eq_of_getLsbD_eq
  intro i hi
  simp [argReserved, BitVec.getLsbD_extractLsb', BitVec.getLsbD_setWidth]

@[simp] theorem argLow_setWidth (b : Byte) : argLow (b.setWidth 64) = b := by
  apply BitVec.eq_of_getLsbD_eq
  intro i hi
  simp [argLow, BitVec.getLsbD_setWidth, hi]
  omega

end Sys2Proof
end

