-- ==== Sys2Proof/Laws/Lanes.lean ====
section
/-! SUPPORT. Reading one lane of a mapping's result: cite these and do not unfold the mappings, whose 25-lane vectors are
costly to unfold. -/

namespace Sys2Proof.Machine

theorem laneAt_eq (x : Lanes) (col row : Fin 5) : laneAt x col row = x[col.val + 5 * row.val] := rfl

theorem laneAt_colOf_rowOf (x : Lanes) (i : Fin 25) : laneAt x (colOf i) (rowOf i) = x[i] := by
  simp only [laneAt, colOf, rowOf, Fin.getElem_fin, Nat.mod_add_div]

/-- Two states with the same lane at every coordinate are equal (R9, R20). -/
theorem lanes_ext_grid {x y : Lanes} (h : ∀ col row, laneAt x col row = laneAt y col row) : x = y := by
  ext i hi : 1
  have hxy := h (colOf ⟨i, hi⟩) (rowOf ⟨i, hi⟩)
  rwa [laneAt_colOf_rowOf, laneAt_colOf_rowOf] at hxy

/-- Two states with the same 25 lanes are equal (R20). -/
theorem lanes_ext {x y : Lanes} (h : ∀ i : Fin 25, x[i] = y[i]) : x = y := by
  ext i hi : 1
  exact h ⟨i, hi⟩

@[simp] theorem laneAt_ofGrid (f : Fin 5 → Fin 5 → Lane) (col row : Fin 5) : laneAt (ofGrid f) col row = f col row := by
  have hc : (col.val + 5 * row.val) % 5 = col.val := by omega
  have hr : (col.val + 5 * row.val) / 5 = row.val := by omega
  simp only [laneAt, ofGrid, Vector.getElem_ofFn, colOf, rowOf, hc, hr]

theorem laneAt_thetaLanes (x : Lanes) (col row : Fin 5) :
    laneAt (thetaLanes x) col row = laneAt x col row ^^^ correction x col := laneAt_ofGrid _ _ _

theorem laneAt_chiLanes (x : Lanes) (col row : Fin 5) :
    laneAt (chiLanes x) col row =
      laneAt x col row ^^^ (~~~ laneAt x (col + 1) row &&& laneAt x (col + 2) row) := laneAt_ofGrid _ _ _

theorem getElem_thetaLanes (x : Lanes) (i : Fin 25) : (thetaLanes x)[i] = x[i] ^^^ correction x (colOf i) := by
  rw [← laneAt_colOf_rowOf, laneAt_thetaLanes, laneAt_colOf_rowOf]

theorem rhoOff_lt : ∀ i : Fin 25, rhoOff[i] < 64 := by decide

theorem getElem_rhoLanes (x : Lanes) (i : Fin 25) : (rhoLanes x)[i] = x[i].rotateLeft rhoOff[i] := by
  rw [← rotl_eq_rotateLeft _ (rhoOff_lt i)]
  simp only [rhoLanes, Fin.getElem_fin, Vector.getElem_ofFn]

theorem piSrc_piDst : ∀ p : Fin 25, piSrc[piDst[p]] = p := by decide

theorem getElem_piLanes (x : Lanes) (q : Fin 25) : (piLanes x)[q] = x[piSrc[q]] := by
  simp only [piLanes, Fin.getElem_fin, Vector.getElem_ofFn]

theorem getElem_iotaLanes_zero (rnd : Fin 24) (x : Lanes) : (iotaLanes rnd x)[0] = x[0] ^^^ roundConst[rnd] :=
  Vector.getElem_set_self _

theorem getElem_iotaLanes_ne (rnd : Fin 24) (x : Lanes) {i : Nat} (hi : i < 25) (h : i ≠ 0) :
    (iotaLanes rnd x)[i] = x[i] :=
  Vector.getElem_set_ne _ _ (Ne.symm h)

@[simp] theorem getElem_xorLanes (x y : Lanes) (i : Nat) (hi : i < 25) : (xorLanes x y)[i] = x[i] ^^^ y[i] := by
  simp only [xorLanes, Vector.getElem_ofFn, Fin.getElem_fin]

theorem getElem_xorLanes_fin (x y : Lanes) (i : Fin 25) : (xorLanes x y)[i] = x[i] ^^^ y[i] :=
  getElem_xorLanes x y i.val i.isLt

@[simp] theorem laneAt_xorLanes (x y : Lanes) (col row : Fin 5) :
    laneAt (xorLanes x y) col row = laneAt x col row ^^^ laneAt y col row := getElem_xorLanes _ _ _ _

@[simp] theorem getElem_zeroLanes (i : Nat) (hi : i < 25) : zeroLanes[i] = 0 := Vector.getElem_replicate _

end Sys2Proof.Machine
end

