-- ==== Sys2Proof/Laws/Formula.lean ====
section
/-! SUPPORT. The parts of the closed formula (R179), byte by byte. -/

namespace Sys2Proof.Machine

/-- Two states with the same 200 bytes are equal (R51). -/
theorem lanes_ext_bytes {x y : Lanes}
    (h : ∀ a (ha : a < 200), byteOf x[a / 8] (a % 8) = byteOf y[a / 8] (a % 8)) : x = y := by
  ext i hi : 1
  apply lane_ext
  intro k hk
  have h2 := h (8 * i + k) (by omega)
  have e1 : (8 * i + k) / 8 = i := by omega
  have e2 : (8 * i + k) % 8 = k := by omega
  simpa only [e1, e2] using h2

/-- Byte `a` of the state made of a list is the `a`-th of the list. -/
theorem byteOf_lanesOfBytes (l : List Byte) {a : Nat} (ha : a < 200) :
    byteOf (lanesOfBytes l)[a / 8] (a % 8) = l.getD a 0 := by
  simp only [lanesOfBytes, Vector.getElem_ofFn]
  rw [byteOf_laneOfBytes _ (by omega)]
  congr 1; omega

/-- XOR of one byte, seen byte by byte (R56). -/
theorem byteOf_set_xor (x : Lanes) {f a : Nat} (hf : f < 200) (ha : a < 200) (v : Byte) :
    byteOf (x.set (f / 8) (x[f / 8] ^^^ byteAt v (f % 8)))[a / 8] (a % 8) =
      byteOf x[a / 8] (a % 8) ^^^ if a = f then v else 0 := by
  by_cases hq : f / 8 = a / 8
  · simp only [hq, Vector.getElem_set_self]
    rw [byteOf_xor, byteOf_byteAt _ (by omega)]
    congr 1
    by_cases h : a = f
    · subst h; simp
    · rw [if_neg h, if_neg (by omega)]
  · rw [Vector.getElem_set_ne _ _ hq, if_neg (by intro h; subst h; exact hq rfl)]
    simp

theorem byteOf_xorLanes (x y : Lanes) {a : Nat} (ha : a < 200) :
    byteOf (xorLanes x y)[a / 8] (a % 8) = byteOf x[a / 8] (a % 8) ^^^ byteOf y[a / 8] (a % 8) := by
  rw [getElem_xorLanes, byteOf_xor]

/-- Absorbing one more byte of a block. -/
theorem xorLanes_snoc (x : Lanes) (p : List Byte) (b : Byte) (hp : p.length < 200) :
    (xorLanes x (lanesOfBytes p)).set (p.length / 8)
      ((xorLanes x (lanesOfBytes p))[p.length / 8] ^^^ byteAt b (p.length % 8)) =
    xorLanes x (lanesOfBytes (p ++ [b])) := by
  apply lanes_ext_bytes
  intro a ha
  rw [byteOf_set_xor _ hp ha, byteOf_xorLanes _ _ ha, byteOf_xorLanes _ _ ha, byteOf_lanesOfBytes _ ha,
    byteOf_lanesOfBytes _ ha, BitVec.xor_assoc]
  congr 1
  rw [List.getD_eq_getElem?_getD, List.getD_eq_getElem?_getD, List.getElem?_append]
  by_cases h : a < p.length
  · simp [h, show a ≠ p.length by omega]
  · by_cases h2 : a = p.length
    · simp [h2]
    · rw [if_neg h, List.getElem?_eq_none (l := [b]) (by simp; omega)]
      have h3 : p[a]? = none := List.getElem?_eq_none (by omega)
      simp [h2, h3]

/-- The bytes of the padded last block (R174, R175): the tail `p`, with `0x06` at its end and `0x80` at the block's. -/
theorem getD_padding {p : List Byte} {r n : Nat} (a : Nat) (hp : p.length < r) (hn : n % r = p.length) :
    (p ++ padding r n).getD a 0 =
      (p.getD a 0 ^^^ if a = p.length then 0x06 else 0) ^^^ if a = r - 1 then 0x80 else 0 := by
  rw [padding, hn]
  rw [List.getD_eq_getElem?_getD, List.getD_eq_getElem?_getD, List.getElem?_append]
  by_cases h : a < p.length
  · simp [h, show a ≠ p.length by omega, show a ≠ r - 1 by omega]
  · obtain ⟨c, rfl⟩ : ∃ c, a = p.length + c := ⟨a - p.length, by omega⟩
    obtain ⟨d, rfl⟩ : ∃ d, r = p.length + 1 + d := ⟨r - (p.length + 1), by omega⟩
    have e1 : p.length + 1 + d - p.length = 1 + d := by omega
    have e2 : p.length + c - p.length = c := by omega
    rw [if_neg h, e1, e2, List.getElem?_eq_none (l := p) (by omega)]
    by_cases hd : d = 0
    · subst hd
      cases c with
      | zero => simp
      | succ c => simp
    · rw [if_neg (by omega)]
      cases c with
      | zero => simp [hd]
      | succ c =>
        have e3 : 1 + d - 2 = d - 1 := by omega
        rw [e3, List.getElem?_cons_succ, List.getElem?_append, List.length_replicate]
        by_cases hc : c < d - 1
        · simp [hc, show c + 1 ≠ d by omega]
        · by_cases hc2 : c = d - 1
          · subst hc2
            simp [show d - 1 + 1 = d by omega, hd]
          · obtain ⟨e, he⟩ : ∃ e, c - (d - 1) = e + 1 := ⟨c - (d - 1) - 1, by omega⟩
            simp [hc, he, show c + 1 ≠ d by omega]

/-- XOR with the state of no bytes changes nothing. -/
theorem xorLanes_nil (x : Lanes) : xorLanes x (lanesOfBytes []) = x := by
  apply lanes_ext_bytes
  intro a ha
  rw [byteOf_xorLanes _ _ ha, byteOf_lanesOfBytes _ ha]
  simp

/-- The two padding XORs turn the tail `p` of the message into the padded last block (R174, R179). -/
theorem xorLanes_padding (x : Lanes) {p : List Byte} {r n : Nat} (hp : p.length < r) (hr : r ≤ 200)
    (hn : n % r = p.length) :
    let y := (xorLanes x (lanesOfBytes p)).set (p.length / 8)
      ((xorLanes x (lanesOfBytes p))[p.length / 8] ^^^ byteAt 0x06 (p.length % 8))
    y.set ((r - 1) / 8) (y[(r - 1) / 8] ^^^ byteAt 0x80 ((r - 1) % 8)) =
      xorLanes x (lanesOfBytes (p ++ padding r n)) := by
  intro y
  apply lanes_ext_bytes
  intro a ha
  rw [byteOf_set_xor _ (by omega) ha, byteOf_set_xor _ (by omega) ha, byteOf_xorLanes _ _ ha, byteOf_xorLanes _ _ ha,
    byteOf_lanesOfBytes _ ha, byteOf_lanesOfBytes _ ha, getD_padding a hp hn]
  simp only [BitVec.xor_assoc]

end Sys2Proof.Machine
end

