-- ==== Sys2Proof/Laws/PerInstr.lean ====
section
/-! SUPPORT. Per instruction: its encoded word decodes to it, every operand bit kept. -/

namespace Sys2Proof.Laws.RoundTrip

/-- The word of an instruction decodes to that instruction. -/
def Statement (i : Instr) : Prop := decode (encode i) = .instr i

theorem init (alg : Byte) : Statement (.init alg) := by
  simp [Statement, encode, decode, decodeCommand]

theorem absorb (b : Byte) : Statement (.absorb b) := by
  simp [Statement, encode, decode, decodeCommand]

theorem absorbw (arg : Lane) : Statement (.absorbw arg) := by
  simp [Statement, encode, decode, decodeCommand]

theorem final : Statement .final := rfl

theorem theta : Statement .theta := rfl

theorem rho : Statement .rho := rfl

theorem pi : Statement .pi := rfl

theorem chi : Statement .chi := rfl

theorem iota : Statement .iota := rfl

end Sys2Proof.Laws.RoundTrip
end

