-- ==== Sys2Proof/Laws/Step.lean ====
section
/-! SUPPORT. What a fetch and a step can do. -/

namespace Sys2Proof.Machine

/-- The four things the block can take up (R142, R207, R215, R240). -/
theorem fetch_cases (s : State) :
    (∃ rest, s.inputs = .rst :: rest ∧ fetch s = .reset { s with inputs := rest }) ∨
    (s.engine = .permuting ∧ s.inputs.head? ≠ some .rst ∧ fetch s = .word (.uop s.seq.step.code) s) ∨
    (s.engine = .idle ∧ ∃ cw rest, s.inputs = .command cw :: rest ∧
      fetch s = .word (.cmd cw) { s with inputs := rest }) ∨
    (s.engine = .idle ∧ s.inputs = [] ∧ fetch s = .waiting) := by
  cases hi : s.inputs with
  | nil => cases he : s.engine <;> simp [fetch, hi, he]
  | cons x rest => cases x <;> cases he : s.engine <;> simp [fetch, hi, he]

/-- A reset is taken in every state (R230, R232). -/
theorem step_of_rst {s : State} {rest : List HostInput} (h : s.inputs = .rst :: rest) :
    step s = .next (takeReset { s with inputs := rest }) := by
  have hf : fetch s = .reset { s with inputs := rest } := by simp [fetch, h]
  rw [step, hf]

theorem step_of_word {s s1 : State} {w : Encoded} (h : fetch s = .word w s1) :
    step s = match decode w with | .instr i => exec i s1 | .reject why => rejected why s1 := by
  cases hd : decode w <;> simp only [step, h, hd]

/-- The code the sequencer holds decodes to the micro-operation of its name (R88). -/
theorem decode_stepCode (q : StepName) :
    decode (.uop q.code) = .instr (match q with
      | .theta => .theta | .rho => .rho | .pi => .pi | .chi => .chi | .iota => .iota) := by
  cases q <;> rfl

/-- A command word decodes to a command or to nothing: the host cannot issue a micro-operation (R88). -/
theorem decodeCommand_format {cw : CommandWord} {i : Instr} (h : decode (.cmd cw) = .instr i) : i.format = .cmd := by
  simp only [decode, decodeCommand] at h
  split at h
  · cases h; rfl
  split at h
  · cases h; rfl
  split at h
  · cases h; rfl
  split at h
  · cases h; rfl
  · cases h

/-- An illegal command word faults if the block accepts a command (R86, R87). -/
theorem rejected_illegal_eq_next {s t : State} :
    rejected .illegalCommand s = .next t ↔ s.flt = .clear ∧ t = { s with flt := .illegalCmd } := by
  rw [rejected, accept_eq_next, raiseFault, Host.Outcome.next.injEq, eq_comm (b := t)]

/-- While a permutation is in progress and no reset is asserted, a step is an issue (R142). -/
theorem step_of_permuting {s : State} (he : s.engine = .permuting) (hr : s.inputs.head? ≠ some .rst) :
    step s = .next (issue s) := by
  obtain ⟨rest, hi, -⟩ | ⟨-, -, hf⟩ | ⟨he', -⟩ | ⟨he', -⟩ := fetch_cases s
  · simp [hi] at hr
  · rw [step_of_word hf, decode_stepCode, issue]
    cases s.seq.step <;> rfl
  · simp [he] at he'
  · simp [he] at he'

/-- Everything a step that answers a next state can have done. -/
theorem step_cases {s t : State} (h : step s = .next t) :
    (∃ rest, s.inputs = .rst :: rest ∧ t = takeReset { s with inputs := rest }) ∨
    (s.engine = .permuting ∧ s.inputs.head? ≠ some .rst ∧ t = issue s) ∨
    (s.engine = .idle ∧ ∃ cw rest, s.inputs = .command cw :: rest ∧
      ((∃ i, decode (.cmd cw) = .instr i ∧ i.format = .cmd ∧ exec i { s with inputs := rest } = .next t) ∨
       (decode (.cmd cw) = .reject .illegalCommand ∧ s.flt = .clear ∧
         t = { s with inputs := rest, flt := .illegalCmd }))) ∨
    (s.engine = .idle ∧ s.inputs = [] ∧ t = s) := by
  obtain ⟨rest, hi, -⟩ | ⟨he, hr, -⟩ | ⟨he, cw, rest, hi, hf⟩ | ⟨he, hi, hf⟩ := fetch_cases s
  · rw [step_of_rst hi] at h
    exact .inl ⟨rest, hi, (Host.Outcome.next.inj h).symm⟩
  · rw [step_of_permuting he hr] at h
    exact .inr (.inl ⟨he, hr, (Host.Outcome.next.inj h).symm⟩)
  · rw [step_of_word hf] at h
    refine .inr (.inr (.inl ⟨he, cw, rest, hi, ?_⟩))
    cases hd : decode (.cmd cw) with
    | instr i =>
      rw [hd] at h
      exact .inl ⟨i, rfl, decodeCommand_format hd, h⟩
    | reject why =>
      rw [hd] at h
      cases why with
      | illegalCommand =>
        obtain ⟨hc, ht⟩ := rejected_illegal_eq_next.mp h
        exact .inr ⟨rfl, hc, ht⟩
      | unusedMicroCode => cases h
  · rw [step, hf] at h
    cases h
    exact .inr (.inr (.inr ⟨he, hi, rfl⟩))

end Sys2Proof.Machine
end

