-- ==== Sys2Proof/Laws/Run.lean ====
section
/-! SUPPORT. Streams of commands, and the run of the machine on the words the host presents. -/

namespace Sys2Proof.Machine

@[simp] theorem execAll_nil (s : State) : execAll [] s = .next s := rfl

@[simp] theorem execAll_cons (i : Instr) (is : List Instr) (s : State) :
    execAll (i :: is) s = andThen (exec i s) (execAll is) := rfl

/-- A stream may be cut anywhere (R64, R165). -/
theorem execAll_append (l1 l2 : List Instr) (s : State) :
    execAll (l1 ++ l2) s = andThen (execAll l1 s) (execAll l2) := by
  induction l1 generalizing s with
  | nil => rfl
  | cons i is ih =>
    rw [List.cons_append, execAll_cons, execAll_cons, andThen_assoc]
    congr 1
    funext s1
    exact ih s1

@[simp] theorem update_nil : update [] = [] := rfl

@[simp] theorem update_cons (b : Byte) (bytes : List Byte) : update (b :: bytes) = .absorb b :: update bytes := rfl

/-- `UPDATE` of a concatenation is the concatenation of the `UPDATE`s (R91). -/
theorem update_append (a b : List Byte) : update (a ++ b) = update a ++ update b := List.map_append

/-- A run of one step more goes on from the state the step leaves. -/
theorem run_of_next {s t : State} (n : Nat) (h : step s = .next t) :
    Host.Core.run Sys2Proof.core (n + 1) s = Host.Core.run Sys2Proof.core n t := by
  have hrun := Host.Core.run.eq_2 Sys2Proof.core s n
  rw [show Sys2Proof.core.step s = .next t from h] at hrun
  exact hrun

@[simp] theorem run_zero (s : State) : Host.Core.run Sys2Proof.core 0 s = .next s := rfl

/-- A command does not touch the host's inputs, whatever it does. -/
theorem exec_command_inputs {i : Instr} {s t : State} (hc : i.format = .cmd) (h : exec i s = .next t) :
    t.inputs = s.inputs := by
  cases i with
  | init alg => obtain ⟨-, ⟨-, rfl⟩ | ⟨-, rfl⟩⟩ := execInit_cases h <;> rfl
  | absorb b =>
    obtain ⟨-, ⟨-, rfl⟩ | ⟨-, rfl⟩ | ⟨-, x, -, rfl⟩⟩ := execAbsorb_cases h
    · rfl
    · rfl
    · rw [advanceFill_frame]
  | absorbw w =>
    obtain ⟨-, ⟨-, rfl⟩ | ⟨-, rfl⟩ | ⟨-, -, rfl⟩ | ⟨-, -, x, -, rfl⟩⟩ := execAbsorbw_cases h
    · rfl
    · rfl
    · rfl
    · rw [advanceFill_frame]
  | final =>
    obtain ⟨-, ⟨-, rfl⟩ | ⟨-, rfl⟩ | ⟨-, s1, h1, -, s2, h2, rfl⟩⟩ := execFinal_cases h
    · rfl
    · rfl
    · obtain ⟨x, y, -, -, rfl⟩ := pad_cases h1
      rw [squeezeBytes_of_le (squeezeBytes_next_le h2)] at h2
      rw [← Host.Outcome.next.inj h2]
      simp
  | theta => cases hc
  | rho => cases hc
  | pi => cases hc
  | chi => cases hc
  | iota => cases hc

end Sys2Proof.Machine
end

