-- ==== Sys2Proof/Tests/Slice0.lean ====
section
/-! SUPPORT. Tests on small states, their expected values taken from the spec (`95_test_vectors.md`, called by name below),
and for each statement of Obligations.lean that has hypotheses a theorem that meets them, at the boundary values. -/

namespace Sys2Proof.Tests

open Sys2Proof Sys2Proof.Machine

/-! ## Helpers -/

/-- The lanes listed, the others zero. -/
def lanesAt (l : List (Nat × Lane)) : Lanes := Vector.ofFn fun i => (l.lookup i.val).getD 0

/-- In mid-message: digest size `d`, fill index `fill`, these lanes. -/
def absorbing (d fill : Byte) (l : List (Nat × Lane)) : State :=
  { State.reset with dsize := d, rate := 200 - 2 * d, fill := fill, phase := .absorbing, lanes := lanesAt l }

/-- After a `FINAL`. -/
def finished : State := { State.reset with dsize := 32, rate := 136, fill := 3, phase := .done }

/-- Inside a permutation, at `SEQ = (rnd, q)`. -/
def permuting (rnd : Fin 24) (q : StepName) (l : List (Nat × Lane)) : State :=
  { State.reset with seq := ⟨rnd, q⟩, engine := .permuting, lanes := lanesAt l }

/-- The command word is waiting. -/
def offer (cw : CommandWord) (s : State) : State := { s with inputs := [.command cw] }

/-- The next state, where there is one. -/
def after : Result → Option State
  | .next t => some t
  | _ => none

/-- The fault, where there is one. -/
def stop : Result → Option Fault
  | .fault e => some e
  | _ => none

/-- The tests below say `after r = some t` and mean this. -/
theorem next_of_after {r : Result} {t : State} (h : after r = some t) : r = .next t := by
  cases r <;> simp_all [after]

/-! ## Well-formedness: an ill-formed term for the one check -/

theorem test_wellFormed_microOperation_from_host : Instr.wellFormed .cmd .theta = false := by decide

theorem test_wellFormed_command_from_sequencer : Instr.wellFormed .uop (.init 32) = false := by decide

theorem test_hostProgram : hostProgram [.init 32, .absorb 0x61, .absorbw 5, .final] = true ∧
    hostProgram [.init 32, .iota] = false := by decide

/-! ## Decoding: words written out from R80, R81, R88 (E1 to E16) -/

theorem test_decode_init : decode (.cmd 0x01000000000000001C) = .instr (.init 28) ∧
    decode (.cmd 0x010000000000000014) = .instr (.init 20) := by decide

theorem test_decode_absorb : decode (.cmd 0x020000000000000061) = .instr (.absorb 0x61) ∧
    decode (.cmd 0x020000000000000000) = .instr (.absorb 0) := by decide

theorem test_decode_absorbw : decode (.cmd 0x030807060504030201) = .instr (.absorbw 0x0807060504030201) ∧
    decode (.cmd 0x030102030405060708) = .instr (.absorbw 0x0102030405060708) := by decide

theorem test_decode_final : decode (.cmd 0x040000000000000000) = .instr .final := by decide

theorem test_decode_micro : decode (.uop 0b000) = .instr .theta ∧ decode (.uop 0b001) = .instr .rho ∧
    decode (.uop 0b010) = .instr .pi ∧ decode (.uop 0b011) = .instr .chi ∧ decode (.uop 0b100) = .instr .iota := by decide

/-- E6, E9, E13, E14, E15, E16. -/
theorem test_decode_illegal :
    [0x010000000000000120, 0x020000000000006261, 0x040000000000000001, 0, 0x050000000000000000,
      0xFFFFFFFFFFFFFFFFFF].all (fun cw => decode (.cmd cw) == .reject .illegalCommand) = true := by decide

theorem test_decode_unused_micro : ∀ c ∈ [(5 : MicroCode), 6, 7], decode (.uop c) = .reject .unusedMicroCode := by decide

/-- A row's word, at the width the table gives it, from the first fetch after reset. -/
theorem test_tableWord : decodeTableWord 72 0x030807060504030201 = some (.absorbw 0x0807060504030201) ∧
    decodeTableWord 8 4 = some .iota ∧ decodeTableWord 72 0 = none := by decide

/-! ## The commands -/

/-- R161's example, from `DONE`. -/
theorem test_init : after (exec (.init 32) finished) =
    some { finished with fill := 0, rate := 136, dsize := 32, lanes := lanesAt [], phase := .absorbing } := by decide

/-- P7c, and R207: `INIT 20` in `DONE` reports `F_BAD_ALG`. -/
theorem test_init_badAlg : after (exec (.init 20) finished) = some { finished with flt := .badAlg } := by decide

/-- R163's example, its third byte. -/
theorem test_absorb : after (exec (.absorb 0x63) (absorbing 32 2 [(0, 0x6261)])) =
    some (absorbing 32 3 [(0, 0x636261)]) := by decide

/-- V-S4d: the byte that fills the block runs the permutation. -/
theorem test_absorb_block : (after (exec (.absorb 0) (absorbing 64 71 []))).any (fun t =>
    t.fill == 0 && t.seq == ⟨0, .theta⟩ && t.engine == .idle) = true := by decide +kernel

/-- R168's example, for both hosts. -/
theorem test_absorbw :
    after (exec (.absorbw 0x0807060504030201) (absorbing 32 0 [])) =
      some (absorbing 32 8 [(0, 0x0807060504030201)]) ∧
    after (exec (.absorbw 0x0102030405060708) { absorbing 32 0 [] with hostBE := true }) =
      some { absorbing 32 8 [(0, 0x0807060504030201)] with hostBE := true } := by decide

/-- P7a, and R207: `ABSORBW` in `UNINIT` reports `F_NOT_INIT`. -/
theorem test_absorbw_faults :
    after (exec (.absorbw 5) (absorbing 32 3 [(0, 0x636261)])) =
      some { absorbing 32 3 [(0, 0x636261)] with flt := .misaligned } ∧
    after (exec (.absorbw 5) { State.reset with fill := 3 }) =
      some { State.reset with fill := 3, flt := .notInit } := by decide

/-- P1: SHA3-256 of the empty message. -/
theorem test_final : (after (exec .final (absorbing 32 0 []))).any (fun t =>
    t.phase == .done && t.rate == 136 && t.out.toList.take 32 ==
      [0xA7, 0xFF, 0xC6, 0xF8, 0xBF, 0x1E, 0xD7, 0x66, 0x51, 0xC1, 0x47, 0x56, 0xA0, 0x61, 0xD6, 0x62,
       0xF5, 0x80, 0xFF, 0x4D, 0xE4, 0x3B, 0x49, 0xFA, 0x82, 0xD8, 0x0A, 0x4B, 0x80, 0xF8, 0x43, 0x4A]) = true := by
  decide +kernel

/-- P7d, and P7a's last row: a second `FINAL` faults, and a halted block accepts none. -/
theorem test_final_faults : after (exec .final finished) = some { finished with flt := .finalized } ∧
    stop (exec .final { absorbing 32 3 [] with flt := .misaligned }) = some (.halted .misaligned) := by decide

/-- R172's example, before the permutation: `0x06` and `0x80` of an empty block at `RATE = 136`. -/
theorem test_pad : after (pad (absorbing 32 0 [])) = some (absorbing 32 0 [(0, 6), (16, 0x8000000000000000)]) := by decide

/-! ## The micro-operations -/

/-- V-T2. -/
theorem test_theta :
    (after (exec .theta (permuting 0 .theta [(7, 0x8000000000000000), (24, 0x0123456789ABCDEF)]))).any (fun t =>
    t.lanes[0] == 0x0123456789ABCDEF && t.lanes[1] == 1 && t.lanes[3] == 0x82468ACF13579BDE && t.lanes[4] == 0 &&
    t.lanes[7] == 0x8000000000000000 && t.lanes[24] == 0x0123456789ABCDEF) = true := by decide

/-- V-R3, and the last lane of V-R1. -/
theorem test_rho :
    (after (exec .rho (permuting 0 .rho [(0, 0xDEADBEEFCAFEF00D), (2, 0x0123456789ABCDEF), (24, 1)]))).any (fun t =>
    t.lanes[0] == 0xDEADBEEFCAFEF00D && t.lanes[2] == 0xC048D159E26AF37B && t.lanes[24] == 0x4000) = true := by decide

/-- V-P2. -/
theorem test_pi : (after (exec .pi (permuting 0 .pi [(1, 0xAAAA), (24, 0xBBBB)]))).any (fun t =>
    t.lanes == lanesAt [(10, 0xAAAA), (4, 0xBBBB)]) = true := by decide

/-- V-C5. -/
theorem test_chi : (after (exec .chi (permuting 0 .chi [(5, 0x3C), (6, 0x0F), (9, 0xF0)]))).any (fun t =>
    t.lanes == lanesAt [(5, 0x3C), (6, 0x0F), (7, 0xF0), (8, 0x0C), (9, 0xF3)]) = true := by decide

/-- V-I2: round 23, after which the permutation is complete. -/
theorem test_iota : after (exec .iota (permuting 23 .iota [(0, 0xFFFFFFFFFFFFFFFF), (1, 1)])) =
    some { State.reset with lanes := lanesAt [(0, 0x7FFFFFFF7FFF7FF7), (1, 1)] } := by decide

/-- R33, where its table goes from the first column to the second, and its two remarks on equal entries. -/
theorem test_roundConst : roundConst[11] = 0x000000008000000A ∧ roundConst[12] = 0x000000008000808B ∧
    roundConst[5] = roundConst[22] ∧ roundConst[6] = roundConst[20] := by decide

/-! ## The step -/

/-- P7e, and a legal word. -/
theorem test_step_command :
    after (step (offer 0 State.reset)) = some { State.reset with flt := .illegalCmd } ∧
    after (step (offer 0x010000000000000040 State.reset)) =
      some { State.reset with rate := 72, dsize := 64, phase := .absorbing } := by decide

/-- A micro-operation placed at the sequencer runs as the first step after reset (V-I1). -/
theorem test_withFetchWord : after (step (State.reset.withFetchWord 8 4)) =
      some { State.reset with lanes := lanesAt [(0, 1)], seq := ⟨1, .theta⟩, engine := .permuting } ∧
    after (step (State.reset.withFetchWord 72 0x010000000000000040)) =
      some { State.reset with rate := 72, dsize := 64, phase := .absorbing } := by decide

/-- R232: a reset inside a permutation. -/
theorem test_step_reset : (after (step { permuting 7 .chi [(3, 1)] with inputs := [.rst], flt := .badAlg })).any (fun t =>
    t.phase == .uninit && t.flt == .clear && t.seq == ⟨0, .theta⟩ && t.engine == .idle) = true := by decide

/-- `UPDATEW` after three bytes: bytes until the count is a multiple of 8, then a word (R92). -/
theorem test_updateWords : updateWords true 7 [0xAA, 1, 2, 3, 4, 5, 6, 7, 8, 9] =
    [.absorb 0xAA, .absorbw 0x0102030405060708, .absorb 9] := by decide

/-! ## Witnesses: the hypotheses of the statements can be met -/

/-- The condition of R86, as IllegalCommandWordFaults writes it. -/
def illegalWord (cw : CommandWord) : Bool :=
  let op := cw.extractLsb' 64 8
  (op = 0x00 ∨ 0x05 ≤ op) ∨ ((op = 0x01 ∨ op = 0x02) ∧ cw.extractLsb' 8 56 ≠ 0) ∨ (op = 0x04 ∧ cw.extractLsb' 0 64 ≠ 0)

/-- Each clause of illegality at its edges, and legal words with the bits beside them. -/
theorem witness_IllegalCommandWordFaults :
    (offer 0 finished).flt = .clear ∧ (offer 0 finished).engine = .idle ∧ (offer 0 finished).inputs = .command 0 :: [] ∧
    [0, 0x050000000000000000, 0xFF0000000000000000, 0x010000000000000100, 0x028000000000000000, 0x040000000000000001,
      0x048000000000000000].all illegalWord = true ∧
    [0x0100000000000000FF, 0x0200000000000000FF, 0x03FFFFFFFFFFFFFFFF, 0x040000000000000000].all
      (fun cw => !illegalWord cw) = true := by decide

theorem witness_StepRunsThePresentedCommand :
    (offer 0x040000000000000000 State.reset).engine = .idle ∧
    (offer 0x040000000000000000 State.reset).inputs = .command 0x040000000000000000 :: [] ∧
    decode (.cmd 0x040000000000000000) = .instr .final := by decide

theorem witness_StepRunsTheMicroOperationAtSeq : ∀ q ∈ [StepName.theta, .rho, .pi, .chi, .iota],
    (permuting 23 q []).engine = .permuting ∧ NoReset (permuting 23 q []) ∧
    ∃ i, decode (.uop (permuting 23 q []).seq.step.code) = .instr i := by
  intro q _
  cases q <;> exact ⟨rfl, by decide, _, rfl⟩

theorem witness_IdleStepHoldsTheState : State.reset.engine = .idle ∧ State.reset.inputs = [] := by decide

/-- A reset in the middle of a permutation. -/
theorem witness_ResetIsTakenInEveryState :
    let s : State := { permuting 3 .pi [] with inputs := [.rst] }
    s.inputs = .rst :: [] ∧ s.engine = .permuting := by decide

/-- A halted block, with an illegal word at its port. -/
theorem witness_HaltedBlockAcceptsNoCommand :
    let s : State := { offer 0 State.reset with flt := .notInit }
    s.flt ≠ .clear ∧ (Instr.init 32).format = .cmd ∧ s.engine = .idle ∧ s.inputs = .command 0 :: [] := by decide

/-- EachCauseIsRaisedExactlyWhen: in every phase, with a word for each cause and one that raises none. -/
theorem witness_EachCauseIsRaisedExactlyWhen :
    (∀ s ∈ [State.reset, absorbing 28 143 [], absorbing 64 0 [], finished], BoundaryInv s ∧ s.flt = .clear) ∧
    (∀ c ∈ [((State.reset, 0), Flt.illegalCmd), ((finished, 0x01000000000000001B), .badAlg),
        ((State.reset, 0x020000000000000000), .notInit), ((finished, 0x040000000000000000), .finalized),
        ((absorbing 28 143 [], 0x030000000000000000), .misaligned), ((absorbing 64 0 [], 0x020000000000000001), .clear)],
      (after (step (offer c.1.2 c.1.1))).any (fun t => t.flt == c.2) = true) := by decide

/-- FaultsArePrecise: a command that faults, for each cause a decoded command can raise. -/
theorem witness_FaultsArePrecise :
    (∀ c ∈ [(Instr.init 29, State.reset), (.absorb 0, State.reset), (.final, finished), (.absorbw 0, absorbing 28 143 [])],
      c.2.flt = .clear ∧ (after (exec c.1 c.2)).any (fun t => t.flt != .clear) = true) ∧
    (offer 0 finished).engine = .idle ∧ (after (step (offer 0 finished))).any (fun t => t.flt != .clear) = true := by
  decide

/-- The last clauses of InitStartsAHash, AbsorbXorsAByte, FinalDeliversTheDigest and AbsorbwXorsAWord: words of each opcode
with the lowest and the highest reserved bit set. -/
theorem witness_reservedBits :
    [(0x010000000000000100, 1), (0x018000000000000000, 1), (0x020000000000000100, 2), (0x028000000000000000, 2)].all
      (fun c : CommandWord × Byte => c.1.extractLsb' 64 8 == c.2 && c.1.extractLsb' 8 56 != 0) = true ∧
    [(0x040000000000000001, 4), (0x048000000000000000, 4), (0x03FFFFFFFFFFFFFFFF, 3)].all
      (fun c : CommandWord × Byte => c.1.extractLsb' 64 8 == c.2 && c.1.extractLsb' 0 64 != 0) = true := by decide

/-- FltIsStickyUntilReset: a halted block that waits, one inside a permutation, and one that is reset. -/
theorem witness_FltIsStickyUntilReset :
    ∀ s ∈ [{ finished with flt := Flt.finalized }, { permuting 0 .theta [] with flt := .badAlg },
        { finished with flt := .finalized, inputs := [.rst] }],
      s.flt ≠ .clear ∧ (after (step s)).isSome = true := by decide

theorem witness_CommandsNeverFailMidway :
    ∀ s ∈ [State.reset, absorbing 64 71 [], absorbing 28 0 [], finished], BoundaryInv s ∧ s.flt = .clear := by decide

theorem witness_InitStartsAHash : State.reset.flt = .clear ∧ (∀ d ∈ [(28 : Byte), 64], d ∈ [(28 : Byte), 32, 48, 64]) ∧
    ∀ d ∈ [(0 : Byte), 27, 29, 65, 255], d ∉ [(28 : Byte), 32, 48, 64] := by decide

/-- AbsorbXorsAByte, AbsorbwXorsAWord, FinalDeliversTheDigest, AbsorbwEqualsEightAbsorbs, WordPathEqualsBytePath,
PaddingInjectorMarksTwoBytes: each phase, and in mid-message the first and the last fill index, aligned and not, for the
smallest and the largest rate. -/
theorem witness_commands : (State.reset.flt = .clear ∧ State.reset.phase = .uninit) ∧
    (finished.flt = .clear ∧ finished.phase = .done) ∧
    (∀ s ∈ [absorbing 28 0 [], absorbing 28 136 [], absorbing 64 0 [], absorbing 64 64 []],
      s.flt = .clear ∧ s.phase = .absorbing ∧ ContextOk s ∧ Absorbing s ∧ s.fill.toNat % 8 = 0) ∧
    (∀ s ∈ [absorbing 28 143 [], absorbing 64 71 [], absorbing 64 1 []],
      s.flt = .clear ∧ s.phase = .absorbing ∧ ContextOk s ∧ Absorbing s ∧ s.fill.toNat % 8 ≠ 0) := by decide

theorem witness_PaddingMasksCompose :
    ∀ s ∈ [absorbing 28 143 [], absorbing 64 71 []], ContextOk s ∧ s.fill = s.rate - 1 := by decide

theorem witness_WordOperandUnpacks : (0 : Nat) < 8 ∧ (7 : Nat) < 8 := by decide

theorem witness_FillCountsTheMessageBytes : State.reset.flt = .clear ∧ (48 : Byte) ∈ [(28 : Byte), 32, 48, 64] := by decide

/-- HashRunComputesSha3: from reset, and from a finished instance. -/
theorem witness_HashRunComputesSha3 :
    ∀ s ∈ [State.reset, finished],
      let t := { s with inputs := present (hash 32 [0x61, 0x62, 0x63]) }
      t.flt = .clear ∧ t.engine = .idle ∧ (32 : Byte) ∈ [(28 : Byte), 32, 48, 64] ∧
        t.inputs = present (hash 32 [0x61, 0x62, 0x63]) ∧ t.inputs.length = 5 := by decide

/-- FinalWipesTheState and FinalFrame: a `FINAL` that completes. -/
theorem witness_FinalWipesTheState :
    (absorbing 64 71 []).phase = .absorbing ∧ ∃ t, exec .final (absorbing 64 71 []) = .next t := by
  refine ⟨rfl, ?_⟩
  show ∃ t, execFinal (absorbing 64 71 []) = .next t
  have hp : pad (absorbing 64 71 []) = .next (absorbing 64 71 [(8, 0x8600000000000000)]) := next_of_after (by decide)
  rw [execFinal, accept_clear rfl, whileAbsorbing_absorbing rfl, hp, andThen_next, squeezeBytes_of_le (by decide)]
  exact ⟨_, rfl⟩

theorem witness_AbsorbShowsTheHostNothing :
    Absorbing (absorbing 28 143 []) ∧ Absorbing (absorbing 64 0 [(3, 7)]) ∧
      (absorbing 28 143 []).out = (absorbing 64 0 [(3, 7)]).out := by decide

/-- MicroOperationFrame, SequencerWalksThePositions: the first, an inner and the last position. -/
theorem witness_microOperations :
    ∀ c ∈ [(Instr.theta, permuting 0 .theta []), (.iota, permuting 4 .iota []), (.iota, permuting 23 .iota [])],
      c.1.format = .uop ∧ (after (exec c.1 c.2)).isSome = true := by decide

theorem witness_PermutationAgreesStepByStep :
    NoReset State.reset ∧ NoReset (offer 0 (absorbing 32 5 [(0, 1)])) := by decide

/-- MemXorIsALaneXor, ByteWriteThenRead, WordReadIsLittleEndian: the first and the last address. -/
theorem witness_memory : (∀ a ∈ [0, 199], a < 200 ∧ (memWrite1 a 0xFF (lanesAt [])).isSome = true) ∧
    ∀ a ∈ [0, 192], a < 200 ∧ a % 8 = 0 ∧ (memRead8 a (lanesAt [])).isSome = true := by decide

/-- InitFrame, AbsorbFrame, AbsorbwFrame, EachRegisterHasItsWriters: the commands answer next states, off the block
boundary and, for the frames' first halves, on a fault. -/
theorem witness_frames :
    ∀ c ∈ [(Instr.init 64, State.reset), (.init 65, State.reset), (.absorb 9, absorbing 28 142 []),
        (.absorbw 9, absorbing 28 128 []), (.absorb 9, finished), (.iota, permuting 23 .iota [])],
      (after (exec c.1 c.2)).isSome = true ∧ c.2.fill + 1 ≠ c.2.rate ∧ c.2.fill + 8 ≠ c.2.rate := by decide

/-- CapacityRegionIsNeverXored: the first address above the rate region. -/
theorem witness_CapacityRegionIsNeverXored :
    let s := absorbing 28 128 []
    Absorbing s ∧ s.rate.toNat ≤ 144 ∧ (after (pad s)).isSome = true ∧
      s.fill + 1 ≠ s.rate ∧ (after (exec (.absorb 1) s)).isSome = true ∧
      s.fill + 8 ≠ s.rate ∧ (after (exec (.absorbw 1) s)).isSome = true := by decide

/-- StepKeepsTheBoundaryInvariant: a command, a reset and an idle step from states that meet it. -/
theorem witness_StepKeepsTheBoundaryInvariant :
    ∀ s ∈ [offer 0x010000000000000020 State.reset, { finished with inputs := [.rst] }, absorbing 64 71 []],
      BoundaryInv s ∧ (after (step s)).isSome = true := by decide

end Sys2Proof.Tests
end

section
/-! PROOF. Under the boundary invariant with `FLT = 0` every command answers a next state (R12, R160). -/

namespace Sys2Proof.Machine

/-! ## Where the accesses of a command fall -/

/-- A legal context keeps every address of `ST` and `OUT` that a command forms inside its space (R23, R24, R26). -/
theorem ContextOk.toNat_bounds {s : State} (h : ContextOk s) :
    s.dsize.toNat ≤ 64 ∧ s.rate.toNat ≤ 144 ∧ s.fill.toNat < s.rate.toNat := by
  obtain ⟨hdsize, hrate, hfill⟩ := h
  have hd : s.dsize.toNat ≤ 64 ∧ (200 - 2 * s.dsize).toNat ≤ 144 := by
    simp only [List.mem_cons, List.not_mem_nil, or_false] at hdsize
    obtain h | h | h | h := hdsize <;> rw [h] <;> decide
  exact ⟨hd.1, hrate ▸ hd.2, BitVec.lt_def.mp hfill⟩

/-- In `ABSORBING`, the boundary invariant gives a legal context. -/
theorem BoundaryInv.contextOk {s : State} (h : BoundaryInv s) (hp : s.phase = .absorbing) : ContextOk s := by
  obtain ⟨-, -, hctx, -⟩ := h
  exact hctx (by simp [hp])

/-! ## Operations that answer a next state -/

theorem xorByte_of_lt {a : Nat} (h : a < 200) (v : Byte) (s : State) :
    ∃ x, xorByte a v s = .next { s with lanes := x } := by
  obtain ⟨-, x, -, hx⟩ | ⟨hge, -⟩ := xorByte_cases a v s
  · exact ⟨x, hx⟩
  · omega

theorem xorWord_of_lt {a : Nat} (ha : a % 8 = 0) (h : a < 200) (v : Lane) (s : State) :
    ∃ x, xorWord a v s = .next { s with lanes := x } := by
  obtain ⟨-, -, x, -, hx⟩ | ⟨hno, -⟩ := xorWord_cases a v s
  · exact ⟨x, hx⟩
  · exact absurd ⟨ha, h⟩ hno

/-- Both bytes of the padding lie in the rate region, so `PAD` completes (R174). -/
theorem pad_of_contextOk {s : State} (h : ContextOk s) : ∃ x, pad s = .next { s with lanes := x } := by
  obtain ⟨-, hrate, hfill⟩ := h.toNat_bounds
  have hlast : (s.rate - 1).toNat < 200 := by bv_omega
  obtain ⟨x, hx⟩ := xorByte_of_lt (show s.fill.toNat < 200 by omega) 0x06 s
  obtain ⟨y, hy⟩ := xorByte_of_lt hlast 0x80 { s with lanes := x }
  exact ⟨y, by rw [pad, hx, andThen_next, hy]⟩

/-- The phase check raises its fault, or leaves the answer to the body (R160). -/
theorem whileAbsorbing_answers {s : State} {body : Result} (h : s.phase = .absorbing → ∃ t, body = .next t) :
    ∃ t, whileAbsorbing s body = .next t := by
  simp only [whileAbsorbing_eq_next]
  cases hp : s.phase with
  | uninit => exact ⟨_, .inr (.inl ⟨rfl, rfl⟩)⟩
  | done => exact ⟨_, .inr (.inr ⟨rfl, rfl⟩)⟩
  | absorbing =>
    obtain ⟨t, ht⟩ := h hp
    exact ⟨t, .inl ⟨rfl, ht⟩⟩

/-! ## The four commands -/

theorem execInit_answers {s : State} (hf : s.flt = .clear) (alg : Byte) : ∃ t, execInit alg s = .next t := by
  rw [execInit, accept_clear hf]
  cases legalSelector alg with
  | true => exact ⟨startHash alg s, rfl⟩
  | false => exact ⟨_, rfl⟩

section
variable {s : State} (hf : s.flt = .clear) (hctx : s.phase = .absorbing → ContextOk s)
include hf hctx

theorem execAbsorb_answers (b : Byte) : ∃ t, execAbsorb b s = .next t := by
  rw [execAbsorb, accept_clear hf]
  refine whileAbsorbing_answers fun hp => ?_
  obtain ⟨-, hrate, hfill⟩ := (hctx hp).toNat_bounds
  obtain ⟨x, hx⟩ := xorByte_of_lt (show s.fill.toNat < 200 by omega) b s
  exact ⟨_, by rw [hx, andThen_next]⟩

theorem execAbsorbw_answers (arg : Lane) : ∃ t, execAbsorbw arg s = .next t := by
  rw [execAbsorbw, accept_clear hf]
  refine whileAbsorbing_answers fun hp => ?_
  obtain ⟨-, hrate, hfill⟩ := (hctx hp).toNat_bounds
  by_cases ha : s.fill.toNat % 8 = 0
  · obtain ⟨x, hx⟩ := xorWord_of_lt ha (show s.fill.toNat < 200 by omega) (messageWord s.hostBE arg) s
    exact ⟨_, by rw [if_pos ha, hx, andThen_next]⟩
  · exact ⟨_, by rw [if_neg ha, raiseFault]⟩

theorem execFinal_answers : ∃ t, execFinal s = .next t := by
  rw [execFinal, accept_clear hf]
  refine whileAbsorbing_answers fun hp => ?_
  obtain ⟨hdsize, -, -⟩ := (hctx hp).toNat_bounds
  obtain ⟨x, hx⟩ := pad_of_contextOk (hctx hp)
  exact ⟨_, by rw [hx, andThen_next, squeezeBytes_of_le hdsize, andThen_next]⟩

end

/-- Settles O13: a check that fails raises its fault, and past the checks a legal context keeps every access of `ST` and
`OUT` inside its address space. -/
theorem commandsNeverFailMidway : Obligations.CommandsNeverFailMidway := by
  unfold Obligations.CommandsNeverFailMidway
  intro i s hi hinv hf
  have hctx : s.phase = .absorbing → ContextOk s := BoundaryInv.contextOk hinv
  cases i with
  | init alg => exact execInit_answers hf alg
  | absorb b => exact execAbsorb_answers hf hctx b
  | absorbw arg => exact execAbsorbw_answers hf hctx arg
  | final => exact execFinal_answers hf hctx
  | theta | rho | pi | chi | iota => simp [Instr.format] at hi

end Sys2Proof.Machine
end

section
/-! SUPPORT. The permutation as one operation on the state, and what each instruction leaves unchanged. -/

namespace Sys2Proof.Machine

/-! ## The engine on return from `KECCAK_F()` (R141, R145) -/

/-- The first `n` rounds of a permutation that began at `SEQ = (0, 0)`, short of the last one (R143). -/
theorem issueTimes_rounds {s : State} (h : s.seq = Seq.start) {n : Nat} (hn : n < 24) :
    issueTimes (5 * n) s = { s with
      lanes := ((List.finRange 24).take n).foldl roundLanes s.lanes, seq := ⟨⟨n, hn⟩, .theta⟩ } := by
  induction n with
  | zero => exact seq_eta h
  | succ n ih =>
    have hlast : (⟨n, by omega⟩ : Fin 24) ≠ 23 := by simp [Fin.ext_iff]; omega
    have htake : (List.finRange 24).take (n + 1) = (List.finRange 24).take n ++ [⟨n, by omega⟩] := by
      simp [List.take_succ_eq_append_getElem (show n < (List.finRange 24).length by simp; omega)]
    rw [Nat.mul_succ, issueTimes_add, ih (by omega), issueTimes_round _ ⟨n, by omega⟩ rfl, if_neg hlast, htake,
      List.foldl_append, Seq.next, dif_pos (show n < 23 by omega)]
    rfl

/-- What a permutation does: all 24 rounds to the lanes, and the engine is idle again at `SEQ = (0, 0)` (R144, R145). -/
theorem keccakF_eq (s : State) :
    keccakF s = { s with lanes := keccakLanes s.lanes, seq := Seq.start, engine := .idle } := by
  have hrounds : List.finRange 24 = (List.finRange 24).take 23 ++ [23] := by decide
  rw [keccakF, issueTimes_add 115 5, issueTimes_rounds (callEngine_seq s) (show 23 < 24 by omega),
    issueTimes_round _ 23 rfl, keccakLanes, hrounds, List.foldl_append]
  rfl

@[simp] theorem keccakF_seq (s : State) : (keccakF s).seq = Seq.start := by rw [keccakF_eq]
@[simp] theorem keccakF_engine (s : State) : (keccakF s).engine = .idle := by rw [keccakF_eq]

/-! ## What an instruction leaves unchanged -/

/-- The squeezer writes `OUT` only (R176). -/
theorem squeezeBytes_frame {n : Nat} {s t : State} (h : squeezeBytes n s = .next t) : t = { s with out := t.out } := by
  rw [squeezeBytes_of_le (squeezeBytes_next_le h)] at h
  cases h
  rfl

/-- All that a `FINAL` that completes writes; `DSIZE`, `RATE`, `FILL` and `FLT` are not among it (R172, R178). -/
theorem wipe_squeeze_pad_frame {s s1 s2 : State} (h1 : pad s = .next s1)
    (h2 : squeezeBytes s1.dsize.toNat (keccakF s1) = .next s2) :
    wipe s2 = { s with lanes := zeroLanes, phase := .done, seq := Seq.start, engine := .idle, out := s2.out } := by
  obtain ⟨x, y, -, -, rfl⟩ := pad_cases h1
  rw [keccakF_eq] at h2
  rw [squeezeBytes_frame h2, wipe]

theorem execAbsorb_frame {b : Byte} {s t : State} (h : execAbsorb b s = .next t) :
    t = { s with lanes := t.lanes, fill := t.fill, flt := t.flt, seq := t.seq, engine := t.engine } := by
  obtain ⟨-, ⟨-, rfl⟩ | ⟨-, rfl⟩ | ⟨-, x, -, rfl⟩⟩ := execAbsorb_cases h
  · rfl
  · rfl
  · rw [advanceFill_frame]

theorem execAbsorbw_frame {arg : Lane} {s t : State} (h : execAbsorbw arg s = .next t) :
    t = { s with lanes := t.lanes, fill := t.fill, flt := t.flt, seq := t.seq, engine := t.engine } := by
  obtain ⟨-, ⟨-, rfl⟩ | ⟨-, rfl⟩ | ⟨-, -, rfl⟩ | ⟨-, -, x, -, rfl⟩⟩ := execAbsorbw_cases h
  · rfl
  · rfl
  · rfl
  · rw [advanceFill_frame]

/-- A micro-operation puts a mapping's result in the lanes and advances the sequencer (R110, R141). -/
theorem exec_uop_cases {i : Instr} {s t : State} (hi : i.format = .uop) (h : exec i s = .next t) :
    ∃ x, t = advance { s with lanes := x } := by
  cases i with
  | init alg | absorb b | absorbw arg | final => simp [Instr.format] at hi
  | theta => exact ⟨thetaLanes s.lanes, (Host.Outcome.next.inj h).symm⟩
  | rho => exact ⟨rhoLanes s.lanes, (Host.Outcome.next.inj h).symm⟩
  | pi => exact ⟨piLanes s.lanes, (Host.Outcome.next.inj h).symm⟩
  | chi => exact ⟨chiLanes s.lanes, (Host.Outcome.next.inj h).symm⟩
  | iota => exact ⟨iotaLanes s.seq.rnd s.lanes, (Host.Outcome.next.inj h).symm⟩

end Sys2Proof.Machine
end

section
/-! PROOF. The registers of one instance (spec section 10): the invariant of command boundaries, the values at reset, the
writers of each register, and the three outputs. -/

namespace Sys2Proof.Machine

/-! ## The context registers (R23, R24, R25) -/

theorem legalSelector_iff {alg : Byte} : legalSelector alg = true ↔ alg ∈ [(28 : Byte), 32, 48, 64] := by
  simp [legalSelector, or_assoc]

/-- Each of the four rates is a whole number of lanes. -/
theorem ContextOk.rate_mod_eight {s : State} (h : ContextOk s) : s.rate.toNat % 8 = 0 := by
  obtain ⟨hdsize, hrate, -⟩ := h
  rw [hrate]
  simp only [List.mem_cons, List.not_mem_nil, or_false] at hdsize
  obtain h | h | h | h := hdsize <;> rw [h] <;> decide

theorem startHash_contextOk {alg : Byte} (h : alg ∈ [(28 : Byte), 32, 48, 64]) (s : State) :
    ContextOk (startHash alg s) := by
  refine ⟨h, rfl, ?_⟩
  rw [startHash_fill, startHash_rate]
  simp only [List.mem_cons, List.not_mem_nil, or_false] at h
  obtain h | h | h | h := h <;> rw [h] <;> decide

/-- A legal context stays legal where the bytes absorbed fit below `RATE`: `FILL` moves up to `RATE` at most, and there it
goes back to 0. -/
theorem advanceFill_contextOk {n : Byte} {s : State} (h : ContextOk s)
    (hn : s.fill.toNat + n.toNat ≤ s.rate.toNat) : ContextOk (advanceFill n s) := by
  obtain ⟨-, hmax, hlt⟩ := h.toNat_bounds
  obtain ⟨hdsize, hrate, -⟩ := h
  by_cases hfull : s.fill + n = s.rate
  · rw [advanceFill_eq, if_pos hfull]
    exact ⟨by simpa using hdsize, by simpa using hrate, by simp only [keccakF_rate]; bv_omega⟩
  · rw [advanceFill_of_ne hfull]
    exact ⟨hdsize, hrate, by bv_omega⟩

/-! ## The invariant of command boundaries (R26, R27, R29) -/

/-- In `UNINIT` the invariant is about the engine only (R39). -/
theorem boundaryInv_of_uninit {s : State} (hengine : s.engine = .idle) (hseq : s.seq = Seq.start)
    (hphase : s.phase = .uninit) : BoundaryInv s :=
  ⟨hengine, hseq, fun h => absurd hphase h, fun h => by simp [hphase] at h⟩

/-- In `ABSORBING` it is about the engine and the context. -/
theorem boundaryInv_of_absorbing {s : State} (hengine : s.engine = .idle) (hseq : s.seq = Seq.start)
    (hphase : s.phase = .absorbing) (hctx : ContextOk s) : BoundaryInv s :=
  ⟨hengine, hseq, fun _ => hctx, fun h => by simp [hphase] at h⟩

/-- Before `DONE` the invariant says nothing of the lanes. -/
theorem BoundaryInv.setLanes {s : State} (h : BoundaryInv s) (hp : s.phase = .absorbing) (x : Lanes) :
    BoundaryInv { s with lanes := x } := by
  have hctx : ContextOk s := h.contextOk hp
  obtain ⟨hengine, hseq, -, -⟩ := h
  exact boundaryInv_of_absorbing hengine hseq hp hctx

theorem takeReset_boundaryInv (s : State) : BoundaryInv (takeReset s) :=
  boundaryInv_of_uninit (takeReset_engine s) (takeReset_seq s) (takeReset_phase s)

theorem advanceFill_boundaryInv {n : Byte} {s : State} (h : BoundaryInv s) (hp : s.phase = .absorbing)
    (hn : s.fill.toNat + n.toNat ≤ s.rate.toNat) : BoundaryInv (advanceFill n s) := by
  have hctx := advanceFill_contextOk (h.contextOk hp) hn
  have hphase : (advanceFill n s).phase = .absorbing := by rw [advanceFill_frame]; exact hp
  obtain ⟨hengine, hseq, -, -⟩ := h
  have hidle : (advanceFill n s).engine = .idle ∧ (advanceFill n s).seq = Seq.start := by
    rw [advanceFill_eq]
    split
    · simp
    · exact ⟨hengine, hseq⟩
  exact boundaryInv_of_absorbing hidle.1 hidle.2 hphase hctx

section
variable {s t : State} (hinv : BoundaryInv s)
include hinv

theorem execInit_boundaryInv {alg : Byte} (h : execInit alg s = .next t) : BoundaryInv t := by
  obtain ⟨-, ⟨hlegal, rfl⟩ | ⟨-, rfl⟩⟩ := execInit_cases h
  · obtain ⟨hengine, hseq, -, -⟩ := hinv
    exact boundaryInv_of_absorbing hengine hseq rfl (startHash_contextOk (legalSelector_iff.mp hlegal) s)
  · exact hinv

theorem execAbsorb_boundaryInv {b : Byte} (h : execAbsorb b s = .next t) : BoundaryInv t := by
  obtain ⟨-, ⟨-, rfl⟩ | ⟨-, rfl⟩ | ⟨hp, x, -, rfl⟩⟩ := execAbsorb_cases h
  · exact hinv
  · exact hinv
  · obtain ⟨-, -, hlt⟩ := (hinv.contextOk hp).toNat_bounds
    exact advanceFill_boundaryInv (hinv.setLanes hp x) hp hlt

theorem execAbsorbw_boundaryInv {arg : Lane} (h : execAbsorbw arg s = .next t) : BoundaryInv t := by
  obtain ⟨-, ⟨-, rfl⟩ | ⟨-, rfl⟩ | ⟨-, -, rfl⟩ | ⟨hp, haligned, x, -, rfl⟩⟩ := execAbsorbw_cases h
  · exact hinv
  · exact hinv
  · exact hinv
  · obtain ⟨-, -, hlt⟩ := (hinv.contextOk hp).toNat_bounds
    have hrate := (hinv.contextOk hp).rate_mod_eight
    have hfits : s.fill.toNat + 8 ≤ s.rate.toNat := by omega
    exact advanceFill_boundaryInv (hinv.setLanes hp x) hp hfits

theorem execFinal_boundaryInv (h : execFinal s = .next t) : BoundaryInv t := by
  obtain ⟨-, ⟨-, rfl⟩ | ⟨-, rfl⟩ | ⟨hp, s1, h1, -, s2, h2, rfl⟩⟩ := execFinal_cases h
  · exact hinv
  · exact hinv
  · have hctx : ContextOk s := hinv.contextOk hp
    rw [wipe_squeeze_pad_frame h1 h2]
    exact ⟨rfl, rfl, fun _ => hctx, fun _ => rfl⟩

theorem exec_command_boundaryInv {i : Instr} (hi : i.format = .cmd) (h : exec i s = .next t) : BoundaryInv t := by
  cases i with
  | init alg => exact execInit_boundaryInv hinv h
  | absorb b => exact execAbsorb_boundaryInv hinv h
  | absorbw arg => exact execAbsorbw_boundaryInv hinv h
  | final => exact execFinal_boundaryInv hinv h
  | theta | rho | pi | chi | iota => simp [Instr.format] at hi

end

/-- Settles O54: at a boundary the engine is idle, so a step is a reset, a wait, an illegal word, which writes `FLT` only, or
one of the four commands. A command moves `FILL` up to `RATE` at most, where the permutation runs and `FILL` starts again. -/
theorem stepKeepsTheBoundaryInvariant : Obligations.StepKeepsTheBoundaryInvariant := by
  unfold Obligations.StepKeepsTheBoundaryInvariant
  intro s t hinv h
  obtain ⟨rest, -, rfl⟩ | ⟨hpermuting, -⟩ | ⟨-, cw, rest, -, hword⟩ | ⟨-, -, rfl⟩ := step_cases h
  · exact takeReset_boundaryInv _
  · obtain ⟨hidle, -⟩ := hinv
    simp [hidle] at hpermuting
  · obtain ⟨i, -, hi, hexec⟩ | ⟨-, -, rfl⟩ := hword
    · exact exec_command_boundaryInv (s := { s with inputs := rest }) hinv hi hexec
    · exact hinv
  · exact hinv

/-- Settles O8 (R39). -/
theorem resetStateIsUninitialised : Obligations.ResetStateIsUninitialised := by
  unfold Obligations.ResetStateIsUninitialised
  exact ⟨rfl, rfl, rfl⟩

/-- Settles O55, by `PHASE`, `SEQ` and the engine alone. -/
theorem resetMeetsTheBoundaryInvariant : Obligations.ResetMeetsTheBoundaryInvariant := by
  unfold Obligations.ResetMeetsTheBoundaryInvariant
  exact boundaryInv_of_uninit rfl rfl rfl

/-! ## The writers of each register -/

/-- Settles O53: by what each instruction can do (its inversion lemma or its frame), the registers it does not write are as
before. -/
theorem eachRegisterHasItsWriters : Obligations.EachRegisterHasItsWriters := by
  unfold Obligations.EachRegisterHasItsWriters
  intro i s t h
  cases i with
  | init alg => obtain ⟨hf, ⟨-, rfl⟩ | ⟨-, rfl⟩⟩ := execInit_cases h <;> simp [hf, Instr.format]
  | absorb b =>
    obtain ⟨hf, -⟩ := execAbsorb_cases h
    rw [execAbsorb_frame h]
    simp [hf, Instr.format]
  | absorbw arg =>
    obtain ⟨hf, -⟩ := execAbsorbw_cases h
    rw [execAbsorbw_frame h]
    simp [hf, Instr.format]
  | final =>
    obtain ⟨hf, ⟨-, rfl⟩ | ⟨-, rfl⟩ | ⟨-, s1, h1, -, s2, h2, rfl⟩⟩ := execFinal_cases h
    · simp [hf, Instr.format]
    · simp [hf, Instr.format]
    · rw [wipe_squeeze_pad_frame h1 h2]
      simp
  | theta | rho | pi | chi | iota =>
    obtain ⟨x, rfl⟩ := exec_uop_cases rfl h
    simp

/-! ## The digest output (R30) -/

/-- Bit `j` of the first `n` bytes of `OUT`, put together, is bit `j mod 8` of byte `j div 8`. -/
theorem getLsbD_digestBits (o : OutBytes) (n : Nat) {j : Nat} (hj : j < 512) :
    (digestBits o n).getLsbD j = (decide (j < 8 * n) && o[j / 8].getLsbD (j % 8)) := by
  induction n with
  | zero => simp [digestBits]
  | succ n ih =>
    rw [digestBits, BitVec.getLsbD_or, ih, BitVec.getLsbD_shiftLeft, BitVec.getLsbD_setWidth]
    by_cases hlow : j < 8 * n
    · simp [hlow, show j < 8 * (n + 1) by omega]
    · by_cases hbyte : j < 8 * (n + 1)
      · obtain rfl : n = j / 8 := by omega
        simp [hlow, hbyte, hj, show j / 8 < 64 by omega, show j - 8 * (j / 8) = j % 8 by omega,
          show j % 8 < 512 by omega]
      · rw [BitVec.getLsbD_of_ge _ (j - 8 * n) (by omega)]
        simp [hlow, hbyte]

theorem extractLsb'_oDigest (s : State) (i : Fin 64) : (oDigest s).extractLsb' (8 * i.val) 8 = s.out[i] := by
  apply BitVec.eq_of_getLsbD_eq
  intro k hk
  rw [BitVec.getLsbD_extractLsb', oDigest, getLsbD_digestBits _ _ (by omega)]
  simp [hk, show (8 * i.val + k) / 8 = i.val by omega, show (8 * i.val + k) % 8 = k by omega,
    show 8 * i.val + k < 512 by omega]

/-- Settles O47: byte by byte for `o_digest`, value by value for the two codes. -/
theorem outputsShowTheState : Obligations.OutputsShowTheState := by
  unfold Obligations.OutputsShowTheState
  intro s
  refine ⟨extractLsb'_oDigest s, ?_, ?_⟩
  · rw [oPhase]
    cases s.phase <;> rfl
  · rw [oFault]
    cases s.flt <;> rfl

end Sys2Proof.Machine
end

section
/-! PROOF. The byte view `ST` (spec section 20): what `MemXor` does to the lanes, which bytes a command leaves as before,
and the capacity region. -/

namespace Sys2Proof.Machine

/-! ## `MemXor` as a lane operation (R56) -/

theorem memXor1_of_lt {a : Nat} (h : a < 200) (v : Byte) (x : Lanes) :
    memXor1 a v x = some (x.set (a / 8) (x[a / 8] ^^^ byteAt v (a % 8))) := by
  rw [memXor1, memRead1_of_lt h, Option.bind_some, memWrite1, dif_pos h, setByteOf_xor]

theorem memXor1_of_ge {a : Nat} (h : 200 ≤ a) (v : Byte) (x : Lanes) : memXor1 a v x = none := by
  rw [memXor1, memRead1_of_ge h, Option.bind_none]

theorem memXor8_of_aligned {a : Nat} (h8 : a % 8 = 0) (h : a < 200) (v : Lane) (x : Lanes) :
    memXor8 a v x = some (x.set (a / 8) (x[a / 8] ^^^ v)) := by
  rw [memXor8, memRead8, dif_pos ⟨h8, h⟩, Option.bind_some, memWrite8, dif_pos ⟨h8, h⟩]

theorem memXor8_of_undefined {a : Nat} (h : ¬ (a % 8 = 0 ∧ a < 200)) (v : Lane) (x : Lanes) :
    memXor8 a v x = none := by
  rw [memXor8, memRead8, dif_neg h, Option.bind_none]

/-- Settles O44: the byte read, XORed and written back is the lane XORed with that byte in place. -/
theorem memXorIsALaneXor : Obligations.MemXorIsALaneXor := by
  unfold Obligations.MemXorIsALaneXor
  intro x
  exact ⟨fun a v h => memXor1_of_lt h v x, fun a v h h8 => memXor8_of_aligned h8 h v x⟩

/-! ## The bytes that `MemXor` leaves -/

/-- A write of one lane leaves the bytes of the others (R51). -/
theorem memRead1_set_of_lane_ne {c i : Nat} (hi : i < 25) (hne : c / 8 ≠ i) (w : Lane) (x : Lanes) :
    memRead1 c (x.set i w) = memRead1 c x := by
  by_cases hc : c < 200
  · rw [memRead1_of_lt hc, memRead1_of_lt hc, Vector.getElem_set_ne _ _ hne.symm]
  · rw [memRead1_of_ge (by omega), memRead1_of_ge (by omega)]

theorem memRead1_memXor1_ne {a c : Nat} {v : Byte} {x y : Lanes} (h : memXor1 a v x = some y) (hne : c ≠ a) :
    memRead1 c y = memRead1 c x := by
  by_cases ha : a < 200
  · rw [memXor1_of_lt ha] at h
    cases h
    by_cases hc : c < 200
    · rw [memRead1_of_lt hc, memRead1_of_lt hc, byteOf_set_xor x ha hc]
      simp [hne]
    · rw [memRead1_of_ge (by omega), memRead1_of_ge (by omega)]
  · simp [memXor1_of_ge (Nat.le_of_not_lt ha)] at h

theorem memRead1_memXor8_of_lane_ne {a c : Nat} {v : Lane} {x y : Lanes} (h : memXor8 a v x = some y)
    (hne : c / 8 ≠ a / 8) : memRead1 c y = memRead1 c x := by
  by_cases ha : a % 8 = 0 ∧ a < 200
  · rw [memXor8_of_aligned ha.1 ha.2] at h
    cases h
    exact memRead1_set_of_lane_ne (by omega) hne _ x
  · simp [memXor8_of_undefined ha] at h

/-! ## The bytes that a command leaves -/

/-- `PAD` XORs the bytes at `FILL` and at `RATE − 1` only (R174). -/
theorem pad_memRead1 {s t : State} {a : Nat} (h : pad s = .next t) (hfill : a ≠ s.fill.toNat)
    (hlast : a ≠ (s.rate - 1).toNat) : memRead1 a t.lanes = memRead1 a s.lanes := by
  obtain ⟨x, y, hx, hy, rfl⟩ := pad_cases h
  calc memRead1 a y = memRead1 a x := memRead1_memXor1_ne hy hlast
    _ = memRead1 a s.lanes := memRead1_memXor1_ne hx hfill

/-- Off the block boundary, `ABSORB` changes the byte at `FILL` only (R163). -/
theorem execAbsorb_memRead1 {b : Byte} {s t : State} {a : Nat} (h : execAbsorb b s = .next t)
    (hpartial : s.fill + 1 ≠ s.rate) (hne : a ≠ s.fill.toNat) : memRead1 a t.lanes = memRead1 a s.lanes := by
  obtain ⟨-, ⟨-, rfl⟩ | ⟨-, rfl⟩ | ⟨-, x, hx, rfl⟩⟩ := execAbsorb_cases h
  · rfl
  · rfl
  · rw [advanceFill_of_ne (s := { s with lanes := x }) hpartial]
    exact memRead1_memXor1_ne hx hne

/-- Off the block boundary, `ABSORBW` changes the lane at `FILL` only, and that only where `FILL` is a multiple of 8
(R168). -/
theorem execAbsorbw_memRead1 {arg : Lane} {s t : State} {a : Nat} (h : execAbsorbw arg s = .next t)
    (hpartial : s.fill + 8 ≠ s.rate) (hne : s.fill.toNat % 8 = 0 → a / 8 ≠ s.fill.toNat / 8) :
    memRead1 a t.lanes = memRead1 a s.lanes := by
  obtain ⟨-, ⟨-, rfl⟩ | ⟨-, rfl⟩ | ⟨-, -, rfl⟩ | ⟨-, haligned, x, hx, rfl⟩⟩ := execAbsorbw_cases h
  · rfl
  · rfl
  · rfl
  · rw [advanceFill_of_ne (s := { s with lanes := x }) hpartial]
    exact memRead1_memXor8_of_lane_ne hx (hne haligned)

/-- Settles O52: `FILL` and `RATE − 1` lie below `RATE`, and since `RATE` is a whole number of lanes, so does the whole lane
at `FILL`. -/
theorem capacityRegionIsNeverXored : Obligations.CapacityRegionIsNeverXored := by
  unfold Obligations.CapacityRegionIsNeverXored
  intro s t a habsorbing ha
  obtain ⟨-, -, hctx⟩ := habsorbing
  obtain ⟨-, -, hfill⟩ := hctx.toNat_bounds
  have hlast : (s.rate - 1).toNat < s.rate.toNat := by bv_omega
  have hlane : a / 8 ≠ s.fill.toNat / 8 := by
    have hrate := hctx.rate_mod_eight
    omega
  exact ⟨fun h => pad_memRead1 h (by omega) (by omega),
    fun b hpartial h => execAbsorb_memRead1 h hpartial (by omega),
    fun w hpartial h => execAbsorbw_memRead1 h hpartial fun _ => hlane⟩

end Sys2Proof.Machine
end

section
/-! PROOF. The command words and micro-operation codes (spec section 30): decoding against encoding, the illegal command
words, and the step that takes a word off the port. -/

namespace Sys2Proof

/-! ## The fields of a word make the word (R80, R81) -/

theorem commandWord_fields (cw : CommandWord) : commandWord (opField cw) (argField cw) = cw := by
  apply BitVec.eq_of_getLsbD_eq
  intro i hi
  rw [commandWord, BitVec.getLsbD_append, opField, argField, BitVec.getLsbD_extractLsb', BitVec.getLsbD_extractLsb']
  by_cases hlow : i < 64
  · simp [hlow]
  · simp [hlow, show i - 64 < 8 by omega, show 64 + (i - 64) = i by omega]

theorem setWidth_argLow {arg : Lane} (h : argReserved arg = 0) : (argLow arg).setWidth 64 = arg := by
  apply BitVec.eq_of_getLsbD_eq
  intro i hi
  rw [BitVec.getLsbD_setWidth, argLow, BitVec.getLsbD_extractLsb']
  by_cases hlow : i < 8
  · simp [hlow, hi]
  · have hbit := congrArg (fun r => r.getLsbD (i - 8)) h
    simp only [argReserved, BitVec.getLsbD_extractLsb', show 8 + (i - 8) = i by omega] at hbit
    simpa [hlow, show i - 8 < 56 by omega] using hbit.symm

/-- The reserved bits `ARG[63:8]` are bits 63 to 8 of the word (R80, R81). -/
theorem argReserved_argField (cw : CommandWord) : argReserved (argField cw) = cw.extractLsb' 8 56 := by
  apply BitVec.eq_of_getLsbD_eq
  intro i hi
  simp only [argReserved, argField, BitVec.getLsbD_extractLsb']
  simp [show 8 + i < 64 by omega]

/-! ## Decoding and encoding -/

theorem decode_encode (i : Instr) : decode (encode i) = .instr i := by
  cases i with
  | init alg => exact Laws.RoundTrip.init alg
  | absorb b => exact Laws.RoundTrip.absorb b
  | absorbw arg => exact Laws.RoundTrip.absorbw arg
  | final => exact Laws.RoundTrip.final
  | theta => exact Laws.RoundTrip.theta
  | rho => exact Laws.RoundTrip.rho
  | pi => exact Laws.RoundTrip.pi
  | chi => exact Laws.RoundTrip.chi
  | iota => exact Laws.RoundTrip.iota

/-- What the fields of a command word are, if it decodes to `i`: one case per row of R81. -/
theorem decodeCommand_cases {cw : CommandWord} {i : Instr} (h : decodeCommand cw = .instr i) :
    (opField cw = 0x01 ∧ argReserved (argField cw) = 0 ∧ i = .init (argLow (argField cw))) ∨
    (opField cw = 0x02 ∧ argReserved (argField cw) = 0 ∧ i = .absorb (argLow (argField cw))) ∨
    (opField cw = 0x03 ∧ i = .absorbw (argField cw)) ∨
    (opField cw = 0x04 ∧ argField cw = 0 ∧ i = .final) := by
  unfold decodeCommand at h
  split at h
  case isTrue hrow =>
    cases h
    exact .inl ⟨hrow.1, hrow.2, rfl⟩
  split at h
  case isTrue hrow =>
    cases h
    exact .inr (.inl ⟨hrow.1, hrow.2, rfl⟩)
  split at h
  case isTrue hop =>
    cases h
    exact .inr (.inr (.inl ⟨hop, rfl⟩))
  split at h
  case isTrue hrow =>
    cases h
    exact .inr (.inr (.inr ⟨hrow.1, hrow.2, rfl⟩))
  · cases h

/-- A command word is the encoding of what it decodes to: its opcode is the row's, and its `ARG` is the operand. -/
theorem encode_of_decodeCommand {cw : CommandWord} {i : Instr} (h : decodeCommand cw = .instr i) :
    encode i = .cmd cw := by
  rw [← commandWord_fields cw]
  obtain ⟨hop, hreserved, rfl⟩ | ⟨hop, hreserved, rfl⟩ | ⟨hop, rfl⟩ | ⟨hop, harg, rfl⟩ := decodeCommand_cases h
  · rw [encode, setWidth_argLow hreserved, hop]
  · rw [encode, setWidth_argLow hreserved, hop]
  · rw [encode, hop]
  · rw [encode, harg, hop]

/-- A micro-operation code likewise, one case per row of R88. -/
theorem encode_of_decodeMicro {code : MicroCode} {i : Instr} (h : decodeMicro code = .instr i) :
    encode i = .uop code := by
  unfold decodeMicro at h
  split at h
  case isTrue hcode => cases h; rw [hcode, encode]
  split at h
  case isTrue hcode => cases h; rw [hcode, encode]
  split at h
  case isTrue hcode => cases h; rw [hcode, encode]
  split at h
  case isTrue hcode => cases h; rw [hcode, encode]
  split at h
  case isTrue hcode => cases h; rw [hcode, encode]
  · cases h

/-- Settles O2: an instruction's word decodes to it, and a word that decodes is put together again from the fields that the
decoder read, no bit of it left out. -/
theorem decodeReadsExactlyTheEncodings : Obligations.DecodeReadsExactlyTheEncodings := by
  unfold Obligations.DecodeReadsExactlyTheEncodings
  intro w i
  constructor
  · intro h
    cases w with
    | cmd cw => exact (encode_of_decodeCommand h).symm
    | uop code => exact (encode_of_decodeMicro h).symm
  · rintro rfl
    exact decode_encode i

/-- Settles O1, by evaluation of the decoder on each word. -/
theorem sampleWordsDecode : Obligations.SampleWordsDecode := by
  unfold Obligations.SampleWordsDecode
  decide

/-! ## Illegal command words (R86) -/

/-- A command word that is no instruction is rejected as illegal: the other reason is for micro-operation codes. -/
theorem decode_cmd_instr_or_illegal (cw : CommandWord) :
    (∃ i, decode (.cmd cw) = .instr i) ∨ decode (.cmd cw) = .reject .illegalCommand := by
  rw [decode, decodeCommand]
  split
  · exact .inl ⟨_, rfl⟩
  split
  · exact .inl ⟨_, rfl⟩
  split
  · exact .inl ⟨_, rfl⟩
  split
  · exact .inl ⟨_, rfl⟩
  · exact .inr rfl

/-- The condition of R86 on the fields of the word, opcode by opcode. -/
theorem decode_cmd_illegal_iff (cw : CommandWord) :
    decode (.cmd cw) = .reject .illegalCommand ↔
      (opField cw = 0x00 ∨ 0x05 ≤ opField cw) ∨
      ((opField cw = 0x01 ∨ opField cw = 0x02) ∧ argReserved (argField cw) ≠ 0) ∨
      (opField cw = 0x04 ∧ argField cw ≠ 0) := by
  have hop : opField cw = 0 ∨ opField cw = 1 ∨ opField cw = 2 ∨ opField cw = 3 ∨ opField cw = 4 ∨ 5#8 ≤ opField cw := by
    bv_omega
  rw [decode, decodeCommand]
  obtain h | h | h | h | h | h := hop
  · simp [h]
  · by_cases hr : argReserved (argField cw) = 0 <;> simp [h, hr]
  · by_cases hr : argReserved (argField cw) = 0 <;> simp [h, hr]
  · simp [h]
  · by_cases hz : argField cw = 0 <;> simp [h, hz]
  · have hne : ∀ v < 5#8, opField cw ≠ v := fun v hv heq => by bv_omega
    simp [h, hne 1#8 (by decide), hne 2#8 (by decide), hne 3#8 (by decide), hne 4#8 (by decide)]

end Sys2Proof

namespace Sys2Proof.Machine

/-! ## The step that takes a command word -/

section
variable {s : State} {cw : CommandWord} {rest : List HostInput}
  (hidle : s.engine = .idle) (hinputs : s.inputs = .command cw :: rest)
include hidle hinputs

theorem fetch_of_command : fetch s = .word (.cmd cw) { s with inputs := rest } := by
  simp [fetch, hidle, hinputs]

theorem step_of_instr {i : Instr} (hd : decode (.cmd cw) = .instr i) : step s = exec i { s with inputs := rest } := by
  rw [step_of_word (fetch_of_command hidle hinputs), hd]

/-- An illegal word sets `FLT` and is taken off the port, nothing else (R86, R204). -/
theorem step_of_illegal (hclear : s.flt = .clear) (hd : decode (.cmd cw) = .reject .illegalCommand) :
    step s = .next { s with flt := .illegalCmd, inputs := rest } := by
  rw [step_of_word (fetch_of_command hidle hinputs), hd]
  exact rejected_illegal_eq_next.mpr ⟨hclear, rfl⟩

end

/-- Settles O3: the condition on the bits is the decoder's on the fields, and a word that is no instruction is rejected as
illegal. -/
theorem illegalCommandWordFaults : Obligations.IllegalCommandWordFaults := by
  unfold Obligations.IllegalCommandWordFaults
  intro s cw rest hclear hidle hinputs op illegal
  have hillegal : decode (.cmd cw) = .reject .illegalCommand ↔ illegal := by
    rw [decode_cmd_illegal_iff, argReserved_argField]
    rfl
  constructor
  · intro h
    exact ⟨rest, step_of_illegal hidle hinputs hclear (hillegal.mpr h)⟩
  · intro h
    exact (decode_cmd_instr_or_illegal cw).resolve_right fun hd => h (hillegal.mp hd)

/-- Settles O4 (R80, R240). -/
theorem stepRunsThePresentedCommand : Obligations.StepRunsThePresentedCommand := by
  unfold Obligations.StepRunsThePresentedCommand
  intro s cw rest i hidle hinputs hd
  exact step_of_instr hidle hinputs hd

end Sys2Proof.Machine
end

section
/-! SUPPORT. `ABSORB` and `ABSORBW` in mid-message: the state each leaves, what `UPDATE` keeps, and one `ABSORBW` as eight
`ABSORB`s (R163, R164, R168, R169). -/

namespace Sys2Proof.Machine

/-! ## The state that a command leaves (R163, R168) -/

/-- Lane `i` XORed with `v`: what a byte or a word absorbed does to the lanes (R56). -/
def xorLane (i : Nat) (hi : i < 25) (v : Lane) (s : State) : State :=
  { s with lanes := s.lanes.set i (s.lanes[i] ^^^ v) }

theorem xorLane_xorLane (i : Nat) (hi : i < 25) (u v : Lane) (s : State) :
    xorLane i hi v (xorLane i hi u s) = xorLane i hi (u ^^^ v) s := by
  simp only [xorLane, Vector.getElem_set_self, Vector.set_set, BitVec.xor_assoc]

theorem xorLane_zero (i : Nat) (hi : i < 25) (s : State) : xorLane i hi 0 s = s := by
  simp [xorLane]

/-- In mid-message `FILL` is byte `k` of lane `i` of the rate region (R26). -/
theorem Absorbing.fill_eq {s : State} (h : Absorbing s) :
    ∃ i k, i < 25 ∧ k < 8 ∧ s.fill.toNat = 8 * i + k := by
  obtain ⟨-, -, hctx⟩ := h
  obtain ⟨-, hrate, hfill⟩ := hctx.toNat_bounds
  exact ⟨s.fill.toNat / 8, s.fill.toNat % 8, by omega, by omega, by omega⟩

section
variable {s : State} (h : Absorbing s) {i : Nat} (hi : i < 25)
include h

theorem exec_absorb_of_absorbing {k : Nat} (hk : k < 8) (hfill : s.fill.toNat = 8 * i + k) (b : Byte) :
    exec (.absorb b) s = .next (advanceFill 1 (xorLane i hi (byteAt b k) s)) := by
  obtain ⟨hclear, hphase, -⟩ := h
  have hdiv : (8 * i + k) / 8 = i := by omega
  have hmod : (8 * i + k) % 8 = k := by omega
  rw [exec, execAbsorb, accept_clear hclear, whileAbsorbing_absorbing hphase, xorByte, hfill,
    memXor1_of_lt (by omega)]
  simp only [hdiv, hmod, andThen_next, xorLane]

theorem exec_absorbw_of_absorbing (hfill : s.fill.toNat = 8 * i) (arg : Lane) :
    exec (.absorbw arg) s = .next (advanceFill 8 (xorLane i hi (messageWord s.hostBE arg) s)) := by
  obtain ⟨hclear, hphase, -⟩ := h
  have hdiv : 8 * i / 8 = i := by omega
  have haligned : 8 * i % 8 = 0 := by omega
  rw [exec, execAbsorbw, accept_clear hclear, whileAbsorbing_absorbing hphase, hfill, if_pos haligned, xorWord,
    memXor8_of_aligned haligned (by omega)]
  simp only [hdiv, andThen_next, xorLane]

end

/-! ## What `UPDATE` keeps -/

@[simp] theorem advanceFill_dsize (n : Byte) (s : State) : (advanceFill n s).dsize = s.dsize := by
  rw [advanceFill_frame]
@[simp] theorem advanceFill_rate (n : Byte) (s : State) : (advanceFill n s).rate = s.rate := by rw [advanceFill_frame]
@[simp] theorem advanceFill_phase (n : Byte) (s : State) : (advanceFill n s).phase = s.phase := by
  rw [advanceFill_frame]
@[simp] theorem advanceFill_flt (n : Byte) (s : State) : (advanceFill n s).flt = s.flt := by rw [advanceFill_frame]
@[simp] theorem advanceFill_hostBE (n : Byte) (s : State) : (advanceFill n s).hostBE = s.hostBE := by
  rw [advanceFill_frame]

/-- `FILL` counts modulo `RATE` (R164). -/
theorem advanceFill_fill {n : Byte} {s : State} (h : ContextOk s) (hn : s.fill.toNat + n.toNat ≤ s.rate.toNat) :
    (advanceFill n s).fill.toNat = (s.fill.toNat + n.toNat) % s.rate.toNat := by
  obtain ⟨-, hmax, -⟩ := h.toNat_bounds
  have hsum : (s.fill + n).toNat = s.fill.toNat + n.toNat := by bv_omega
  rw [← hsum, advanceFill_eq]
  split
  case isTrue hfull => simp [hfull]
  case isFalse hpartial => exact (Nat.mod_eq_of_lt (by bv_omega)).symm

/-- In mid-message `ABSORB` completes and the block is still in mid-message, one byte further. -/
theorem exec_absorb_keeps_absorbing {s : State} (h : Absorbing s) (b : Byte) :
    ∃ t, exec (.absorb b) s = .next t ∧ Absorbing t ∧ t.dsize = s.dsize ∧ t.rate = s.rate ∧ t.hostBE = s.hostBE ∧
      t.fill.toNat = (s.fill.toNat + 1) % s.rate.toNat := by
  obtain ⟨i, k, hi, hk, hfill⟩ := h.fill_eq
  refine ⟨_, exec_absorb_of_absorbing h hi hk hfill b, ?_⟩
  obtain ⟨hclear, hphase, hctx⟩ := h
  obtain ⟨-, -, hfits⟩ := hctx.toNat_bounds
  refine ⟨⟨?_, ?_, advanceFill_contextOk hctx hfits⟩, ?_, ?_, ?_, advanceFill_fill hctx hfits⟩ <;>
    simp [xorLane, hclear, hphase]

/-- `UPDATE` completes, and `FILL` counts its bytes modulo `RATE` (R164). -/
theorem execAll_update_keeps_absorbing {s : State} (h : Absorbing s) (bytes : List Byte) :
    ∃ t, execAll (update bytes) s = .next t ∧ Absorbing t ∧ t.dsize = s.dsize ∧ t.rate = s.rate ∧ t.hostBE = s.hostBE ∧
      t.fill.toNat = (s.fill.toNat + bytes.length) % s.rate.toNat := by
  induction bytes generalizing s with
  | nil =>
    obtain ⟨-, -, hctx⟩ := id h
    obtain ⟨-, -, hfill⟩ := hctx.toNat_bounds
    exact ⟨s, rfl, h, rfl, rfl, rfl, (Nat.mod_eq_of_lt hfill).symm⟩
  | cons b bytes ih =>
    obtain ⟨s1, hstep, habs1, hdsize1, hrate1, hbe1, hfill1⟩ := exec_absorb_keeps_absorbing h b
    obtain ⟨t, hrest, habs, hdsize, hrate, hbe, hfill⟩ := ih habs1
    refine ⟨t, ?_, habs, hdsize.trans hdsize1, hrate.trans hrate1, hbe.trans hbe1, ?_⟩
    · rw [update_cons, execAll_cons, hstep, andThen_next, hrest]
    · rw [hfill, hrate1, hfill1, Nat.mod_add_mod, List.length_cons]
      congr 1
      omega

/-! ## One `ABSORBW` as eight `ABSORB`s (R169) -/

/-- The lane of the lowest `j` bytes of `w`, zero above. -/
def lowBytes (w : Lane) (j : Nat) : Lane := laneOfBytes fun k => if k < j then byteOf w k else 0

theorem byteOf_lowBytes (w : Lane) (j : Nat) {k : Nat} (hk : k < 8) :
    byteOf (lowBytes w j) k = if k < j then byteOf w k else 0 :=
  byteOf_laneOfBytes _ hk

theorem lowBytes_zero (w : Lane) : lowBytes w 0 = 0 := by
  apply lane_ext
  intro k hk
  rw [byteOf_lowBytes _ _ hk, if_neg (by omega)]
  simp [byteOf]

theorem lowBytes_eight (w : Lane) : lowBytes w 8 = w := by
  apply lane_ext
  intro k hk
  rw [byteOf_lowBytes _ _ hk, if_pos hk]

theorem lowBytes_succ (w : Lane) (j : Nat) : lowBytes w (j + 1) = lowBytes w j ^^^ byteAt (byteOf w j) j := by
  apply lane_ext
  intro k hk
  rw [byteOf_xor, byteOf_lowBytes _ _ hk, byteOf_lowBytes _ _ hk, byteOf_byteAt _ hk]
  obtain hlt | rfl | hgt := Nat.lt_trichotomy k j
  · simp [hlt, hlt.ne, show k < j + 1 by omega]
  · simp
  · simp [hgt.ne', show ¬ k < j by omega, show ¬ k < j + 1 by omega]

/-- A move of `FILL` after an earlier one that met no block boundary is one move by their sum. -/
theorem advanceFill_add (m n : Byte) (s : State) :
    advanceFill n { s with fill := s.fill + m } = advanceFill (m + n) s := by
  simp only [advanceFill_eq, BitVec.add_assoc]

/-- The state after the lowest `j` bytes of `w`, absorbed from the start of lane `i`, short of a block boundary. -/
def withLowBytes (w : Lane) (i : Nat) (hi : i < 25) (j : Nat) (s : State) : State :=
  { xorLane i hi (lowBytes w j) s with fill := s.fill + BitVec.ofNat 8 j }

theorem withLowBytes_zero (w : Lane) (i : Nat) (hi : i < 25) (s : State) : withLowBytes w i hi 0 s = s := by
  rw [withLowBytes, lowBytes_zero, xorLane_zero]
  simp

theorem execAll_singleton (i : Instr) (s : State) : execAll [i] s = exec i s := by
  cases h : exec i s <;> rw [execAll_cons, h] <;> rfl

/-- `RATE` is a whole number of lanes, so the first seven bytes of an aligned word end below it. -/
theorem Absorbing.fill_add_lt_rate {s : State} (h : Absorbing s) {i j : Nat} (hfill : s.fill.toNat = 8 * i)
    (hj : j < 8) :
    (s.fill + BitVec.ofNat 8 j).toNat = 8 * i + j ∧ (s.fill + BitVec.ofNat 8 j).toNat < s.rate.toNat := by
  obtain ⟨-, -, hctx⟩ := h
  obtain ⟨-, -, hlt⟩ := hctx.toNat_bounds
  have hlanes := hctx.rate_mod_eight
  have hsum : (s.fill + BitVec.ofNat 8 j).toNat = 8 * i + j := by bv_omega
  exact ⟨hsum, by omega⟩

section
variable {s : State} (h : Absorbing s) {i : Nat} (hi : i < 25) (hfill : s.fill.toNat = 8 * i)
include h hi hfill

theorem withLowBytes_absorbing (w : Lane) {j : Nat} (hj : j < 8) : Absorbing (withLowBytes w i hi j s) := by
  obtain ⟨-, hlt⟩ := h.fill_add_lt_rate hfill hj
  obtain ⟨hclear, hphase, hdsize, hrate, -⟩ := h
  exact ⟨hclear, hphase, hdsize, hrate, hlt⟩

theorem advanceFill_lowBytes (w : Lane) {j : Nat} (hj : j < 8) :
    advanceFill (BitVec.ofNat 8 j) (xorLane i hi (lowBytes w j) s) = withLowBytes w i hi j s := by
  obtain ⟨-, hlt⟩ := h.fill_add_lt_rate hfill hj
  exact advanceFill_of_ne fun heq => hlt.ne (congrArg BitVec.toNat heq)

/-- Byte `j` of the word follows the bytes below it. -/
theorem exec_absorb_withLowBytes (w : Lane) {j : Nat} (hj : j < 8) :
    exec (.absorb (byteOf w j)) (withLowBytes w i hi j s) =
      .next (advanceFill (BitVec.ofNat 8 (j + 1)) (xorLane i hi (lowBytes w (j + 1)) s)) := by
  obtain ⟨hindex, -⟩ := h.fill_add_lt_rate hfill hj
  rw [exec_absorb_of_absorbing (withLowBytes_absorbing h hi hfill w hj) hi hj hindex, lowBytes_succ, ← xorLane_xorLane,
    BitVec.ofNat_add, ← advanceFill_add]
  rfl

/-- The first `j` bytes of an aligned word, one `ABSORB` each: the block boundary can only be met at the eighth. -/
theorem execAll_update_lowBytes (w : Lane) {j : Nat} (hj : j ≤ 8) :
    execAll (update ((List.range j).map (byteOf w))) s =
      .next (advanceFill (BitVec.ofNat 8 j) (xorLane i hi (lowBytes w j) s)) := by
  induction j with
  | zero =>
    rw [advanceFill_lowBytes h hi hfill w (by omega), withLowBytes_zero]
    rfl
  | succ j ih =>
    rw [List.range_succ, List.map_append, update_append, execAll_append, ih (by omega), andThen_next,
      advanceFill_lowBytes h hi hfill w hj, ← exec_absorb_withLowBytes h hi hfill w hj]
    exact execAll_singleton _ _

/-- R169, for any operand. -/
theorem exec_absorbw_eq_execAll_update (arg : Lane) :
    exec (.absorbw arg) s = execAll (update ((List.range 8).map (byteOf (messageWord s.hostBE arg)))) s := by
  rw [execAll_update_lowBytes h hi hfill _ (le_refl 8), lowBytes_eight]
  exact exec_absorbw_of_absorbing h hi hfill arg

end

end Sys2Proof.Machine
end

section
/-! PROOF. The operand of `ABSORBW` for either host, and the word path against the byte path (R84, R92, R168, R169). -/

namespace Sys2Proof.Machine

/-! ## The operand of `ABSORBW` (R84) -/

/-- Byte `k` of the result is byte `7 − k` (R167). -/
theorem byteOf_bswap64 (w : Lane) {k : Nat} (hk : k < 8) : byteOf (bswap64 w) k = byteOf w (7 - k) :=
  byteOf_laneOfBytes _ hk

/-- The converter undoes the packing of the host: the lane value has the message bytes in order (R84, R168). -/
theorem messageWord_packWord (hostBE : Bool) (m : Nat → Byte) :
    messageWord hostBE (packWord hostBE m) = laneOfBytes m := by
  cases hostBE with
  | false => rfl
  | true =>
    apply lane_ext
    intro k hk
    show byteOf (bswap64 (laneOfBytes fun k => m (7 - k))) k = byteOf (laneOfBytes m) k
    rw [byteOf_bswap64 _ hk, byteOf_laneOfBytes _ (by omega), byteOf_laneOfBytes _ hk, show 7 - (7 - k) = k by omega]

/-- Settles O17: with `HOST_BE = 0` the operand is the lane value, with `HOST_BE = 1` its byte reversal. -/
theorem wordOperandUnpacks : Obligations.WordOperandUnpacks := by
  unfold Obligations.WordOperandUnpacks
  intro arg k hk
  refine ⟨rfl, ?_⟩
  rw [show 56 - 8 * k = 8 * (7 - k) by omega]
  exact byteOf_bswap64 arg hk

/-! ## `UPDATEW` against `UPDATE` (R92) -/

/-- One packed `ABSORBW` is the `UPDATE` of its eight bytes. -/
theorem exec_absorbw_packWord {s : State} (h : Absorbing s) (haligned : s.fill.toNat % 8 = 0) (m : Nat → Byte) :
    exec (.absorbw (packWord s.hostBE m)) s = execAll (update ((List.range 8).map m)) s := by
  have hbytes : (List.range 8).map (byteOf (laneOfBytes m)) = (List.range 8).map m :=
    List.map_congr_left fun k hk => byteOf_laneOfBytes m (List.mem_range.mp hk)
  obtain ⟨i, k, hi, hk, hfill⟩ := h.fill_eq
  rw [exec_absorbw_eq_execAll_update h hi (by omega), messageWord_packWord, hbytes]

/-- After some bytes the block is still in mid-message, with `FILL` moved by their number modulo 8: it is enough that two
streams agree from there on. -/
theorem execAll_append_congr {s : State} (h : Absorbing s) (bytes : List Byte) {p q : List Instr}
    (hpq : ∀ t, Absorbing t → t.hostBE = s.hostBE → t.fill.toNat % 8 = (s.fill.toNat + bytes.length) % 8 →
      execAll p t = execAll q t) :
    execAll (update bytes ++ p) s = execAll (update bytes ++ q) s := by
  obtain ⟨t, ht, habsorbing, -, -, hbe, hfill⟩ := execAll_update_keeps_absorbing h bytes
  obtain ⟨-, -, hctx⟩ := h
  rw [execAll_append, execAll_append, ht, andThen_next, andThen_next]
  exact hpq t habsorbing hbe (by rw [hfill, Nat.mod_mod_of_dvd _ (Nat.dvd_of_mod_eq_zero hctx.rate_mod_eight)])

/-- The count `n` of R92 may be taken modulo 8. -/
theorem execAll_updateWords (hostBE : Bool) (n : Nat) (bytes : List Byte) {s : State} (h : Absorbing s)
    (hbe : s.hostBE = hostBE) (hn : n % 8 = s.fill.toNat % 8) :
    execAll (updateWords hostBE n bytes) s = execAll (update bytes) s := by
  induction n, bytes using updateWords.induct generalizing s with
  | case1 n m0 m1 m2 m3 m4 m5 m6 m7 rest haligned ih =>
    rw [updateWords, if_pos haligned, execAll_cons, ← hbe, exec_absorbw_packWord h (by omega), ← execAll_append, hbe]
    exact execAll_append_congr h [m0, m1, m2, m3, m4, m5, m6, m7] (q := update rest) fun t ht hbet hfill =>
      ih ht (hbet.trans hbe) (by simp at hfill; omega)
  | case2 n m0 m1 m2 m3 m4 m5 m6 m7 rest hmisaligned ih =>
    rw [updateWords, if_neg hmisaligned]
    exact execAll_append_congr h [m0] fun t ht hbet hfill =>
      ih ht (hbet.trans hbe) (by simp at hfill; omega)
  | case3 n m0 rest hshort ih =>
    rw [updateWords]
    · exact execAll_append_congr h [m0] fun t ht hbet hfill =>
        ih ht (hbet.trans hbe) (by simp at hfill; omega)
    · exact hshort
  | case4 => rfl

/-- Settles O23, by induction over the message with the count of R92 taken modulo 8: `FILL` starts again at the block
boundary, and `RATE` is a multiple of 8. Each aligned word is one `ABSORBW` or eight `ABSORB`s (R169). -/
theorem wordPathEqualsBytePath : Obligations.WordPathEqualsBytePath := by
  unfold Obligations.WordPathEqualsBytePath
  intro bytes s h
  exact execAll_updateWords s.hostBE s.fill.toNat bytes h rfl rfl

end Sys2Proof.Machine
end

section
/-! PROOF. The five step micro-operations θ ρ π χ ι on the state: what each writes into the lanes and what it leaves unchanged
(R110 to R128). -/

namespace Sys2Proof.Machine

/-! ## Each micro-operation as one update of the state: its mapping, then the advance of R141 -/

theorem exec_theta (s : State) : exec .theta s =
    .next { s with lanes := thetaLanes s.lanes, seq := s.seq.next, engine := (advance s).engine } := rfl

theorem exec_rho (s : State) : exec .rho s =
    .next { s with lanes := rhoLanes s.lanes, seq := s.seq.next, engine := (advance s).engine } := rfl

theorem exec_pi (s : State) : exec .pi s =
    .next { s with lanes := piLanes s.lanes, seq := s.seq.next, engine := (advance s).engine } := rfl

theorem exec_chi (s : State) : exec .chi s =
    .next { s with lanes := chiLanes s.lanes, seq := s.seq.next, engine := (advance s).engine } := rfl

theorem exec_iota (s : State) : exec .iota s =
    .next { s with lanes := iotaLanes s.seq.rnd s.lanes, seq := s.seq.next, engine := (advance s).engine } := rfl

/-! ## THETA (R111, R112) -/

/-- The parity by lane numbers: the lanes of a column stand five apart (R9). -/
theorem parity_eq (x : Lanes) (c : Fin 5) :
    parity x c = x[c.val] ^^^ x[c.val + 5] ^^^ x[c.val + 10] ^^^ x[c.val + 15] ^^^ x[c.val + 20] := rfl

/-- Settles O29: the correction word of lane `i` is that of its column, with each parity read from the old lanes. -/
theorem thetaMixesColumnParities : Obligations.ThetaMixesColumnParities := by
  unfold Obligations.ThetaMixesColumnParities
  intro s
  refine ⟨_, _, exec_theta s, fun i c hc => ?_⟩
  have hcol : colOf i = c := Fin.ext hc.symm
  rw [getElem_thetaLanes, hcol, correction, rotl_eq_rotateLeft _ (by omega), parity_eq, parity_eq]

/-! ## RHO (R116) -/

/-- Settles O30: the result of the mapping, lane by lane. -/
theorem rhoRotatesEachLane : Obligations.RhoRotatesEachLane := by
  unfold Obligations.RhoRotatesEachLane
  exact fun s => ⟨_, _, exec_rho s, getElem_rhoLanes s.lanes⟩

/-! ## PI (R120) -/

/-- The gather table in coordinates: the lane that moves to `(col, row)` comes from `(col + 3·row, col)`. -/
theorem piSrc_grid : ∀ col row : Fin 5,
    (piSrc[col.val + 5 * row.val]).val = (col + 3 * row).val + 5 * col.val := by decide

theorem laneAt_piLanes (x : Lanes) (col row : Fin 5) : laneAt (piLanes x) col row = laneAt x (col + 3 * row) col := by
  have hgather : laneAt (piLanes x) col row = x[piSrc[col.val + 5 * row.val]] :=
    getElem_piLanes x ⟨col.val + 5 * row.val, by omega⟩
  simp only [hgather, Fin.getElem_fin, piSrc_grid, laneAt_eq]

/-- Settles O31: the model gathers; the scatter form holds because the two tables are inverse, and the coordinate form by
the gather table. -/
theorem piMovesTheLanes : Obligations.PiMovesTheLanes := by
  unfold Obligations.PiMovesTheLanes
  intro s
  refine ⟨_, _, exec_pi s, fun p => ?_, getElem_piLanes s.lanes, laneAt_piLanes s.lanes⟩
  simp only [getElem_piLanes, piSrc_piDst]

/-! ## CHI (R124) -/

/-- Settles O32: the result of the mapping, by coordinates. -/
theorem chiMixesEachRow : Obligations.ChiMixesEachRow := by
  unfold Obligations.ChiMixesEachRow
  exact fun s => ⟨_, _, exec_chi s, laneAt_chiLanes s.lanes⟩

/-! ## IOTA (R128) -/

/-- Settles O33: one lane is written, and the constant is that of the round before the advance. -/
theorem iotaXorsTheRoundConstant : Obligations.IotaXorsTheRoundConstant := by
  unfold Obligations.IotaXorsTheRoundConstant
  intro s
  exact ⟨_, _, exec_iota s, getElem_iotaLanes_zero s.seq.rnd s.lanes,
    fun i hi => getElem_iotaLanes_ne s.seq.rnd s.lanes i.isLt hi⟩

/-! ## The frame common to the five (R110) -/

theorem exec_uop_answers {i : Instr} (hi : i.format = .uop) (s : State) : ∃ t, exec i s = .next t := by
  cases i with
  | init alg | absorb b | absorbw arg | final => simp [Instr.format] at hi
  | theta => exact ⟨_, exec_theta s⟩
  | rho => exact ⟨_, exec_rho s⟩
  | pi => exact ⟨_, exec_pi s⟩
  | chi => exact ⟨_, exec_chi s⟩
  | iota => exact ⟨_, exec_iota s⟩

/-- Settles O34: every micro-operation answers, and all it does is to put a mapping's result in the lanes and advance. -/
theorem microOperationFrame : Obligations.MicroOperationFrame := by
  unfold Obligations.MicroOperationFrame
  intro i s hi
  obtain ⟨t, ht⟩ := exec_uop_answers hi s
  obtain ⟨x, rfl⟩ := exec_uop_cases hi ht
  exact ⟨_, ht, rfl⟩

end Sys2Proof.Machine
end

section
/-! PROOF. The round sequencer (spec section 41): the walk of `SEQ` over the 120 positions, and the permutation as steps of the
machine against the permutation as one operation. -/

namespace Sys2Proof.Machine

/-! ## The 120 positions (R140, R141) -/

/-- The number of a micro-operation in the microprogram: `5·RND + STEP` (R140). -/
def Seq.position (q : Seq) : Nat := 5 * q.rnd.val + q.step.code.toNat

section
variable (rnd : Fin 24)

@[simp] theorem Seq.position_theta : Seq.position ⟨rnd, .theta⟩ = 5 * rnd.val := rfl
@[simp] theorem Seq.position_rho : Seq.position ⟨rnd, .rho⟩ = 5 * rnd.val + 1 := rfl
@[simp] theorem Seq.position_pi : Seq.position ⟨rnd, .pi⟩ = 5 * rnd.val + 2 := rfl
@[simp] theorem Seq.position_chi : Seq.position ⟨rnd, .chi⟩ = 5 * rnd.val + 3 := rfl
@[simp] theorem Seq.position_iota : Seq.position ⟨rnd, .iota⟩ = 5 * rnd.val + 4 := rfl

end

@[simp] theorem Seq.position_start : Seq.start.position = 0 := rfl

theorem Seq.position_lt (q : Seq) : q.position < 120 := by
  obtain ⟨rnd, step⟩ := q
  cases step <;> simp <;> omega

/-- Within a round `STEP` moves on; after `IOTA` the next round begins, and after round 23 the first (R141). -/
theorem Seq.position_next (q : Seq) : q.next.position = (q.position + 1) % 120 := by
  obtain ⟨rnd, step⟩ := q
  cases step with
  | theta | rho | pi | chi =>
    simp [next]
    omega
  | iota =>
    by_cases hrnd : rnd.val < 23
    · simp [next, hrnd]
      omega
    · simp [next, hrnd]
      omega

/-- Position 119 is `IOTA` of round 23 and no other micro-operation (R140). -/
theorem Seq.position_eq_last_iff (q : Seq) : q.position = 119 ↔ q = Seq.last := by
  obtain ⟨rnd, step⟩ := q
  cases step with
  | theta | rho | pi | chi =>
    simp [last]
    omega
  | iota =>
    simp [last, Fin.ext_iff]
    omega

/-- Settles O35: a micro-operation advances the sequencer once, whatever mapping it applies. -/
theorem sequencerWalksThePositions : Obligations.SequencerWalksThePositions := by
  unfold Obligations.SequencerWalksThePositions
  intro i s t hi h
  obtain ⟨x, rfl⟩ := exec_uop_cases hi h
  have hengine : (advance { s with lanes := x }).engine = if s.seq.position = 119 then .idle else s.engine := by
    simp only [advance_engine, Seq.position_eq_last_iff]
  exact ⟨s.seq.position_lt, s.seq.position_next, hengine⟩

/-! ## The permutation as one operation (R145) -/

/-- Settles O36: 24 times five issues are the 24 rounds, and no issue writes anything but the lanes, the sequencer and the
model's field `engine`. -/
theorem keccakFIsTwentyFourRounds : Obligations.KeccakFIsTwentyFourRounds := by
  unfold Obligations.KeccakFIsTwentyFourRounds
  exact keccakF_eq

/-! ## The step inside a permutation (R142) -/

/-- The sequencer issues the code of `STEP` (R142, R88). -/
theorem fetch_of_permuting {s : State} (hpermuting : s.engine = .permuting) (hreset : NoReset s) :
    fetch s = .word (.uop s.seq.step.code) s := by
  obtain ⟨rest, hinputs, -⟩ | ⟨-, -, hfetch⟩ | ⟨hidle, -⟩ | ⟨hidle, -⟩ := fetch_cases s
  · simp [NoReset, hinputs] at hreset
  · exact hfetch
  · simp [hidle] at hpermuting
  · simp [hidle] at hpermuting

/-- Settles O5: the word fetched is the code of `STEP`, and the fetch takes nothing off the port. -/
theorem stepRunsTheMicroOperationAtSeq : Obligations.StepRunsTheMicroOperationAtSeq := by
  unfold Obligations.StepRunsTheMicroOperationAtSeq
  intro s i hpermuting hreset hd
  rw [step_of_word (fetch_of_permuting hpermuting hreset), hd]

/-! ## The permutation step by step (R147) -/

theorem issue_seq (s : State) : (issue s).seq = s.seq.next := by rw [issue_frame]

theorem issue_inputs (s : State) : (issue s).inputs = s.inputs := by rw [issue_frame]

/-- Before position 119 an issue leaves the permutation in progress (R141). -/
theorem issue_engine_of_position_lt {s : State} (h : s.seq.position < 119) : (issue s).engine = s.engine := by
  have hlast : s.seq ≠ Seq.last := fun heq => h.ne ((Seq.position_eq_last_iff _).mpr heq)
  rw [issue_frame, advance_engine, if_neg hlast]

/-- Steps of the machine are issues as long as the microprogram has that many left: only after the last one is the engine
idle, and no issue touches the host's inputs. -/
theorem run_eq_issueTimes (n : Nat) {s : State} (hreset : NoReset s) (hengine : n ≠ 0 → s.engine = .permuting)
    (hleft : s.seq.position + n ≤ 120) : Host.Core.run Sys2Proof.core n s = .next (issueTimes n s) := by
  induction n generalizing s with
  | zero => rfl
  | succ n ih =>
    have hpermuting : s.engine = .permuting := hengine n.succ_ne_zero
    rw [run_of_next n (step_of_permuting hpermuting hreset), issueTimes]
    refine ih (by rwa [NoReset, issue_inputs]) (fun hn => ?_) ?_
    · rw [issue_engine_of_position_lt (by omega), hpermuting]
    · rw [issue_seq, Seq.position_next]
      omega

/-- Settles O37: the call puts the engine at position 0, so 120 micro-operations are left. -/
theorem permutationAgreesStepByStep : Obligations.PermutationAgreesStepByStep := by
  unfold Obligations.PermutationAgreesStepByStep
  intro s hreset
  refine run_eq_issueTimes 120 (s := callEngine s) hreset (fun _ => callEngine_engine s) ?_
  rw [callEngine_seq, Seq.position_start]

end Sys2Proof.Machine
end

section
/-! PROOF. The four commands of the sponge driver (spec section 42): the state each one leaves in every phase, what it leaves
unchanged, and chunking. -/

namespace Sys2Proof.Machine

/-! ## The phase check of an accepted command, where it faults (R160) -/

theorem accept_whileAbsorbing_uninit {s : State} (hclear : s.flt = .clear) (hphase : s.phase = .uninit) (body : Result) :
    accept s (whileAbsorbing s body) = .next { s with flt := .notInit } :=
  accept_eq_next.mpr ⟨hclear, whileAbsorbing_eq_next.mpr (.inr (.inl ⟨hphase, rfl⟩))⟩

theorem accept_whileAbsorbing_done {s : State} (hclear : s.flt = .clear) (hphase : s.phase = .done) (body : Result) :
    accept s (whileAbsorbing s body) = .next { s with flt := .finalized } :=
  accept_eq_next.mpr ⟨hclear, whileAbsorbing_eq_next.mpr (.inr (.inr ⟨hphase, rfl⟩))⟩

/-! ## Words with a reserved bit set (R81, R86) -/

theorem decode_illegal_of_reserved {cw : CommandWord} (hop : opField cw = 0x01 ∨ opField cw = 0x02)
    (hreserved : cw.extractLsb' 8 56 ≠ 0) : decode (.cmd cw) = .reject .illegalCommand := by
  rw [← argReserved_argField] at hreserved
  exact (decode_cmd_illegal_iff cw).mpr (.inr (.inl ⟨hop, hreserved⟩))

theorem decode_illegal_of_final_arg {cw : CommandWord} (hop : opField cw = 0x04) (harg : argField cw ≠ 0) :
    decode (.cmd cw) = .reject .illegalCommand :=
  (decode_cmd_illegal_iff cw).mpr (.inr (.inr ⟨hop, harg⟩))

/-- All 64 bits of `ARG` are the operand of `ABSORBW` (R84). -/
theorem decode_absorbw {cw : CommandWord} (hop : opField cw = 0x03) :
    decode (.cmd cw) = .instr (.absorbw (argField cw)) := by
  have hword : encode (.absorbw (argField cw)) = .cmd cw := by rw [encode, ← hop, commandWord_fields]
  rw [← hword, decode_encode]

/-! ## `INIT` (R161) -/

/-- Settles O14: `INIT` makes no phase check; the selector alone decides. -/
theorem initStartsAHash : Obligations.InitStartsAHash := by
  unfold Obligations.InitStartsAHash
  intro s alg hclear
  rw [exec, execInit, accept_clear hclear]
  refine ⟨fun hlegal => ?_, fun hillegal => ?_, fun cw hop => decode_illegal_of_reserved (.inl hop)⟩
  · rw [if_pos (legalSelector_iff.mpr hlegal)]
    rfl
  · rw [if_neg fun hlegal => hillegal (legalSelector_iff.mp hlegal)]
    rfl

/-! ## `ABSORB` and `ABSORBW` (R163, R168) -/

/-- At the block boundary the lanes are permuted and `SEQ` is back at `(0, 0)`; elsewhere only `FILL` moves. -/
theorem advanceFill_eq_permuted (n : Byte) (s : State) :
    advanceFill n s =
      if s.fill + n = s.rate then
        { s with lanes := keccakLanes s.lanes, fill := 0, seq := Seq.start, engine := .idle }
      else { s with fill := s.fill + n } := by
  rw [advanceFill_eq, keccakF_eq]

/-- Settles O15: `FILL` lies below `RATE`, so its byte is in one of the 25 lanes. -/
theorem absorbXorsAByte : Obligations.AbsorbXorsAByte := by
  unfold Obligations.AbsorbXorsAByte
  intro s b hclear
  refine ⟨fun hphase => accept_whileAbsorbing_uninit hclear hphase _,
    fun hphase => accept_whileAbsorbing_done hclear hphase _, fun hphase hctx => ?_,
    fun cw hop => decode_illegal_of_reserved (.inr hop)⟩
  obtain ⟨-, hrate, hfill⟩ := hctx.toNat_bounds
  have hlane : s.fill.toNat / 8 < 25 := by omega
  refine ⟨.idle, hlane, ?_⟩
  rw [exec_absorb_of_absorbing ⟨hclear, hphase, hctx⟩ hlane (Nat.mod_lt _ (by decide)) (Nat.div_add_mod _ 8).symm,
    advanceFill_eq_permuted]
  rfl

/-- Settles O16: an aligned `FILL` is the first byte of a lane. -/
theorem absorbwXorsAWord : Obligations.AbsorbwXorsAWord := by
  unfold Obligations.AbsorbwXorsAWord
  intro s arg hclear
  refine ⟨fun hphase => accept_whileAbsorbing_uninit hclear hphase _,
    fun hphase => accept_whileAbsorbing_done hclear hphase _, fun hphase hmisaligned => ?_,
    fun hphase haligned hctx => ?_, fun cw => decode_absorbw⟩
  · rw [exec, execAbsorbw, accept_clear hclear, whileAbsorbing_absorbing hphase, if_neg hmisaligned, raiseFault]
  · obtain ⟨-, hrate, hfill⟩ := hctx.toNat_bounds
    have hlane : s.fill.toNat / 8 < 25 := by omega
    refine ⟨.idle, hlane, ?_⟩
    rw [exec_absorbw_of_absorbing ⟨hclear, hphase, hctx⟩ hlane (by omega), advanceFill_eq_permuted]
    rfl

/-- Settles O22: the bytes of the operand are absorbed into one lane, and only the eighth can meet the block boundary. -/
theorem absorbwEqualsEightAbsorbs : Obligations.AbsorbwEqualsEightAbsorbs := by
  unfold Obligations.AbsorbwEqualsEightAbsorbs
  intro s arg habsorbing haligned
  obtain ⟨i, k, hi, hk, hfill⟩ := habsorbing.fill_eq
  rw [exec_absorbw_eq_execAll_update habsorbing hi (by omega), update, List.map_map]
  rfl

/-- Settles O18: reversing the order of the bytes twice puts each of them back. -/
theorem byteSwapReversesTheBytes : Obligations.ByteSwapReversesTheBytes := by
  unfold Obligations.ByteSwapReversesTheBytes
  intro w
  refine ⟨fun k hk => byteOf_bswap64 w hk, lane_ext fun k hk => ?_⟩
  rw [byteOf_bswap64 _ hk, byteOf_bswap64 _ (by omega), show 7 - (7 - k) = k by omega]

/-! ## Chunks of a message (R165) -/

/-- A message cut into chunks, from whatever the commands before it answered. -/
theorem foldl_andThen_update (chunks : List (List Byte)) (r : Result) :
    chunks.foldl (fun r chunk => andThen r (execAll (update chunk))) r =
      andThen r (execAll (update chunks.flatten)) := by
  induction chunks generalizing r with
  | nil => cases r <;> rfl
  | cons chunk chunks ih =>
    rw [List.foldl_cons, ih, andThen_assoc, List.flatten_cons, update_append]
    congr 1
    funext s
    exact (execAll_append _ _ s).symm

/-- Settles O24, by induction over the chunks: a stream of commands may be cut anywhere. -/
theorem chunkingIsInvisible : Obligations.ChunkingIsInvisible := by
  unfold Obligations.ChunkingIsInvisible
  intro chunks s
  exact foldl_andThen_update chunks (.next s)

/-! ## The padding injector (R174, R175) -/

@[simp] theorem xorLane_dsize (i : Nat) (hi : i < 25) (v : Lane) (s : State) : (xorLane i hi v s).dsize = s.dsize := rfl
@[simp] theorem xorLane_rate (i : Nat) (hi : i < 25) (v : Lane) (s : State) : (xorLane i hi v s).rate = s.rate := rfl

theorem xorByte_eq_xorLane {a : Nat} (h : a < 200) (v : Byte) (s : State) :
    xorByte a v s = .next (xorLane (a / 8) (by omega) (byteAt v (a % 8)) s) := by
  rw [xorByte, memXor1_of_lt h]
  rfl

theorem byteAt_xor (u v : Byte) (k : Nat) : byteAt u k ^^^ byteAt v k = byteAt (u ^^^ v) k := by
  simp only [byteAt, BitVec.setWidth_xor, BitVec.shiftLeft_xor_distrib]

/-- Two masks on one byte are their XOR. -/
theorem xorByte_xorByte {a : Nat} (h : a < 200) (u v : Byte) (s : State) :
    andThen (xorByte a u s) (xorByte a v) = xorByte a (u ^^^ v) s := by
  rw [xorByte_eq_xorLane h, andThen_next, xorByte_eq_xorLane h, xorByte_eq_xorLane h, xorLane_xorLane, byteAt_xor]

/-- The first mask does not touch `RATE`, so the place of the second is known before. -/
theorem pad_eq_xorByte {s : State} (h : s.fill.toNat < 200) :
    pad s = andThen (xorByte s.fill.toNat 0x06 s) (xorByte (s.rate - 1).toNat 0x80) := by
  rw [pad, xorByte_eq_xorLane h, andThen_next, andThen_next, xorLane_rate]

/-- The state padded: `0x06` into the byte at `FILL`, then `0x80` into the byte at `RATE − 1`. -/
theorem pad_eq {s : State} (h : ContextOk s) (hfill : s.fill.toNat / 8 < 25) (hlast : (s.rate.toNat - 1) / 8 < 25) :
    pad s = .next (xorLane ((s.rate.toNat - 1) / 8) hlast (byteAt 0x80 ((s.rate.toNat - 1) % 8))
      (xorLane (s.fill.toNat / 8) hfill (byteAt 0x06 (s.fill.toNat % 8)) s)) := by
  obtain ⟨-, hrate, hlt⟩ := h.toNat_bounds
  have hsub : (s.rate - 1).toNat = s.rate.toNat - 1 := by bv_omega
  rw [pad_eq_xorByte (by omega), xorByte_eq_xorLane (by omega), andThen_next, hsub, xorByte_eq_xorLane (by omega)]

/-- Settles O19: `RATE` is a whole number of lanes, so byte `RATE − 1` is the top byte of the last of them. -/
theorem paddingInjectorMarksTwoBytes : Obligations.PaddingInjectorMarksTwoBytes := by
  unfold Obligations.PaddingInjectorMarksTwoBytes
  intro s hctx
  obtain ⟨-, hrate, hfill⟩ := hctx.toNat_bounds
  have hlanes := hctx.rate_mod_eight
  have hlane : (s.rate.toNat - 1) / 8 = s.rate.toNat / 8 - 1 := by omega
  have htop : (s.rate.toNat - 1) % 8 = 7 := by omega
  refine ⟨by omega, by omega, ?_⟩
  rw [pad_eq hctx (by omega) (by omega)]
  simp only [hlane, htop]
  rfl

/-- Settles O20: `0x06 XOR 0x80 = 0x86`. -/
theorem paddingMasksCompose : Obligations.PaddingMasksCompose := by
  unfold Obligations.PaddingMasksCompose
  intro s hctx hfill
  obtain ⟨-, hrate, hlt⟩ := hctx.toNat_bounds
  have hbyte : s.fill.toNat < 200 := by omega
  rw [pad_eq_xorByte hbyte, ← hfill]
  exact xorByte_xorByte hbyte 0x06 0x80 s

/-! ## `FINAL` (R172, R176, R177) -/

/-- Settles O21: pad, permute, squeeze and wipe, each by its own equation. -/
theorem finalDeliversTheDigest : Obligations.FinalDeliversTheDigest := by
  unfold Obligations.FinalDeliversTheDigest
  intro s hclear
  refine ⟨fun hphase => accept_whileAbsorbing_uninit hclear hphase _,
    fun hphase => accept_whileAbsorbing_done hclear hphase _, fun hphase hctx => ?_,
    fun cw hop => decode_illegal_of_final_arg hop⟩
  obtain ⟨hdsize, hrate, hfill⟩ := hctx.toNat_bounds
  have hlane : s.fill.toNat / 8 < 25 := by omega
  have hlast : (s.rate.toNat - 1) / 8 < 25 := by omega
  refine ⟨.idle, hlane, hlast, ?_⟩
  rw [exec, execFinal, accept_clear hclear, whileAbsorbing_absorbing hphase, pad_eq hctx hlane hlast, andThen_next,
    xorLane_dsize, xorLane_dsize, keccakF_eq, squeezeBytes_of_le hdsize, andThen_next]
  rfl

/-! ## What a command leaves in the bytes of `ST` -/

theorem memRead1_zeroLanes {a : Nat} (h : a < 200) : memRead1 a zeroLanes = some 0 := by
  rw [memRead1_of_lt h, getElem_zeroLanes]
  simp [byteOf]

/-- The wipe is the last thing that a `FINAL` in mid-message does to the lanes. -/
theorem execFinal_lanes {s t : State} (hphase : s.phase = .absorbing) (h : execFinal s = .next t) :
    t.lanes = zeroLanes := by
  obtain ⟨-, ⟨hp, -⟩ | ⟨hp, -⟩ | ⟨-, s1, -, -, s2, -, rfl⟩⟩ := execFinal_cases h
  · simp [hphase] at hp
  · simp [hphase] at hp
  · rfl

/-- Settles O27. -/
theorem finalWipesTheState : Obligations.FinalWipesTheState := by
  unfold Obligations.FinalWipesTheState
  intro s t hphase h a ha
  rw [execFinal_lanes hphase h, memRead1_zeroLanes ha]

/-! ## Frames -/

/-- Settles O48: `INIT` completes and zeroes the lanes, or raises its fault and touches none. -/
theorem initFrame : Obligations.InitFrame := by
  unfold Obligations.InitFrame
  intro s t alg h
  obtain ⟨hclear, ⟨-, rfl⟩ | ⟨-, rfl⟩⟩ := execInit_cases h
  · exact ⟨rfl, .inl ⟨hclear, fun a ha => memRead1_zeroLanes ha⟩⟩
  · exact ⟨rfl, .inr fun a => rfl⟩

/-- Off the block boundary no permutation runs, so `ABSORB` leaves the sequencer. -/
theorem execAbsorb_seq {b : Byte} {s t : State} (h : execAbsorb b s = .next t) (hpartial : s.fill + 1 ≠ s.rate) :
    t.seq = s.seq ∧ t.engine = s.engine := by
  obtain ⟨-, ⟨-, rfl⟩ | ⟨-, rfl⟩ | ⟨-, x, -, rfl⟩⟩ := execAbsorb_cases h
  · exact ⟨rfl, rfl⟩
  · exact ⟨rfl, rfl⟩
  · rw [advanceFill_of_ne (s := { s with lanes := x }) hpartial]
    exact ⟨rfl, rfl⟩

theorem execAbsorbw_seq {arg : Lane} {s t : State} (h : execAbsorbw arg s = .next t)
    (hpartial : s.fill + 8 ≠ s.rate) : t.seq = s.seq ∧ t.engine = s.engine := by
  obtain ⟨-, ⟨-, rfl⟩ | ⟨-, rfl⟩ | ⟨-, -, rfl⟩ | ⟨-, -, x, -, rfl⟩⟩ := execAbsorbw_cases h
  · exact ⟨rfl, rfl⟩
  · exact ⟨rfl, rfl⟩
  · exact ⟨rfl, rfl⟩
  · rw [advanceFill_of_ne (s := { s with lanes := x }) hpartial]
    exact ⟨rfl, rfl⟩

/-- Settles O49. -/
theorem absorbFrame : Obligations.AbsorbFrame := by
  unfold Obligations.AbsorbFrame
  intro s t b h
  refine ⟨execAbsorb_frame h, fun hpartial => ?_⟩
  obtain ⟨hseq, hengine⟩ := execAbsorb_seq h hpartial
  exact ⟨hseq, hengine, fun a hne => execAbsorb_memRead1 h hpartial hne⟩

/-- Settles O50: with `FILL` aligned, a byte outside the eight from `FILL` on is in another lane. -/
theorem absorbwFrame : Obligations.AbsorbwFrame := by
  unfold Obligations.AbsorbwFrame
  intro s t arg h
  refine ⟨execAbsorbw_frame h, fun hpartial => ?_⟩
  obtain ⟨hseq, hengine⟩ := execAbsorbw_seq h hpartial
  exact ⟨hseq, hengine, fun a houtside => execAbsorbw_memRead1 h hpartial fun haligned => by omega⟩

/-- The squeezer leaves `OUT` from its count of bytes on (R176). -/
theorem squeezeBytes_out_of_ge {n : Nat} {s t : State} (h : squeezeBytes n s = .next t) {i : Fin 64}
    (hi : n ≤ i.val) : t.out[i] = s.out[i] := by
  rw [squeezeBytes_of_le (squeezeBytes_next_le h)] at h
  cases h
  simp [Nat.not_lt.mpr hi]

/-- Settles O51: of what a `FINAL` that completes writes, only the squeezer's bytes go to `OUT`, and they end at `DSIZE`. -/
theorem finalFrame : Obligations.FinalFrame := by
  unfold Obligations.FinalFrame
  intro s t h
  obtain ⟨hclear, ⟨-, rfl⟩ | ⟨-, rfl⟩ | ⟨-, s1, hpad, -, s2, hsqueeze, rfl⟩⟩ := execFinal_cases h
  · exact ⟨rfl, fun i _ => rfl, .inr fun a => rfl⟩
  · exact ⟨rfl, fun i _ => rfl, .inr fun a => rfl⟩
  · rw [wipe_squeeze_pad_frame hpad hsqueeze]
    refine ⟨rfl, fun i hi => ?_, .inl ⟨hclear, fun a ha => memRead1_zeroLanes ha⟩⟩
    obtain ⟨x, y, -, -, rfl⟩ := pad_cases hpad
    show s2.out[i] = s.out[i]
    rw [squeezeBytes_out_of_ge hsqueeze hi, keccakF_out]

end Sys2Proof.Machine
end

section
/-! PROOF. Exceptions (spec section 60): when each cause is raised, that a fault changes `FLT` only, that the faulted block
takes nothing but a reset, and the wait on an empty port. -/

namespace Sys2Proof.Machine

/-! ## The faulted block (R205, R206) -/

/-- Every command begins with the test of `FLT` (R160). -/
theorem exec_command_of_halted {i : Instr} {s : State} (hi : i.format = .cmd) (hfault : s.flt ≠ .clear) :
    exec i s = .fault (.halted s.flt) := by
  cases i with
  | init alg | absorb b | absorbw arg | final => exact accept_halted hfault _
  | theta | rho | pi | chi | iota => simp [Instr.format] at hi

/-- So does the rejection of an illegal word (R87). -/
theorem rejected_illegal_of_halted {s : State} (hfault : s.flt ≠ .clear) :
    rejected .illegalCommand s = .fault (.halted s.flt) :=
  accept_halted hfault _

/-- Settles O9: a word at the port is a command or illegal, and either way the test of `FLT` comes first. -/
theorem haltedBlockAcceptsNoCommand : Obligations.HaltedBlockAcceptsNoCommand := by
  unfold Obligations.HaltedBlockAcceptsNoCommand
  intro s hfault
  refine ⟨fun i hi => exec_command_of_halted hi hfault, fun cw rest hidle hinputs => ?_⟩
  obtain ⟨i, hd⟩ | hd := decode_cmd_instr_or_illegal cw
  · rw [step_of_instr hidle hinputs hd]
    exact exec_command_of_halted (s := { s with inputs := rest }) (decodeCommand_format hd) hfault
  · rw [step_of_word (fetch_of_command hidle hinputs), hd]
    exact rejected_illegal_of_halted (s := { s with inputs := rest }) hfault

/-- Settles O12: a command that answers has found `FLT = 0`, and neither an issue nor a wait writes `FLT`. -/
theorem fltIsStickyUntilReset : Obligations.FltIsStickyUntilReset := by
  unfold Obligations.FltIsStickyUntilReset
  intro s t hfault h
  obtain ⟨rest, hinputs, rfl⟩ | ⟨-, -, rfl⟩ | ⟨-, cw, rest, -, hword⟩ | ⟨-, -, rfl⟩ := step_cases h
  · exact .inr ⟨by simp [hinputs], takeReset_flt _⟩
  · exact .inl (by rw [issue_frame])
  · obtain ⟨i, -, hi, hexec⟩ | ⟨-, hclear, -⟩ := hword
    · rw [exec_command_of_halted hi (s := { s with inputs := rest }) hfault] at hexec
      cases hexec
    · exact absurd hclear hfault
  · exact .inl rfl

/-! ## Which cause an instruction raises (R202) -/

/-- The cause that the phase check of `ABSORB`, `ABSORBW` and `FINAL` raises; `clear` where it passes (R160). -/
def Phase.fault : Phase → Flt
  | .uninit => .notInit
  | .done => .finalized
  | .absorbing => .clear

/-- The cause that an instruction raises in a state with `FLT = 0`, by the checks of R160; `clear` where it completes.
`exec_raises` ties it to the model. -/
def raisedBy (s : State) : Instr → Flt
  | .init alg => if alg ∈ [(28 : Byte), 32, 48, 64] then .clear else .badAlg
  | .absorb _ | .final => s.phase.fault
  | .absorbw _ => if s.phase = .absorbing ∧ s.fill.toNat % 8 ≠ 0 then .misaligned else s.phase.fault
  | .theta | .rho | .pi | .chi | .iota => .clear

/-- An instruction that answers has raised its cause and changed nothing else, or has none and left `FLT = 0`. -/
theorem exec_raises {i : Instr} {s t : State} (hclear : s.flt = .clear) (h : exec i s = .next t) :
    t = { s with flt := raisedBy s i } ∨ (raisedBy s i = .clear ∧ t.flt = .clear) := by
  cases i with
  | init alg =>
    obtain ⟨-, ⟨hlegal, rfl⟩ | ⟨hillegal, rfl⟩⟩ := execInit_cases h
    · exact .inr ⟨if_pos (legalSelector_iff.mp hlegal), hclear⟩
    · have hnot : alg ∉ [(28 : Byte), 32, 48, 64] := by rw [← legalSelector_iff, hillegal]; decide
      exact .inl (by rw [raisedBy, if_neg hnot])
  | absorb b =>
    obtain ⟨-, ⟨hp, rfl⟩ | ⟨hp, rfl⟩ | ⟨hp, x, -, rfl⟩⟩ := execAbsorb_cases h
    · exact .inl (by simp [raisedBy, hp, Phase.fault])
    · exact .inl (by simp [raisedBy, hp, Phase.fault])
    · exact .inr ⟨by simp [raisedBy, hp, Phase.fault], by simpa using hclear⟩
  | absorbw arg =>
    obtain ⟨-, ⟨hp, rfl⟩ | ⟨hp, rfl⟩ | ⟨hp, hmis, rfl⟩ | ⟨hp, haligned, x, -, rfl⟩⟩ := execAbsorbw_cases h
    · exact .inl (by simp [raisedBy, hp, Phase.fault])
    · exact .inl (by simp [raisedBy, hp, Phase.fault])
    · exact .inl (by rw [raisedBy, if_pos ⟨hp, hmis⟩])
    · exact .inr ⟨by simp [raisedBy, hp, haligned, Phase.fault], by simpa using hclear⟩
  | final =>
    obtain ⟨-, ⟨hp, rfl⟩ | ⟨hp, rfl⟩ | ⟨hp, s1, hpad, -, s2, hsqueeze, rfl⟩⟩ := execFinal_cases h
    · exact .inl (by simp [raisedBy, hp, Phase.fault])
    · exact .inl (by simp [raisedBy, hp, Phase.fault])
    · rw [wipe_squeeze_pad_frame hpad hsqueeze]
      exact .inr ⟨by simp [raisedBy, hp, Phase.fault], hclear⟩
  | theta | rho | pi | chi | iota =>
    obtain ⟨x, rfl⟩ := exec_uop_cases rfl h
    exact .inr ⟨rfl, hclear⟩

theorem exec_flt {i : Instr} {s t : State} (hclear : s.flt = .clear) (h : exec i s = .next t) :
    t.flt = raisedBy s i := by
  obtain rfl | ⟨hnone, hflt⟩ := exec_raises hclear h
  · rfl
  · rw [hflt, hnone]

/-- What an instruction that faults leaves behind (R204). -/
theorem exec_fault_eq {i : Instr} {s t : State} (hclear : s.flt = .clear) (h : exec i s = .next t)
    (hfault : t.flt ≠ .clear) : t = { s with flt := raisedBy s i } :=
  (exec_raises hclear h).resolve_right fun hnone => hfault hnone.2

/-- Settles O11: of the steps of an idle block only a command that faults and an illegal word leave `FLT` not 0. -/
theorem faultsArePrecise : Obligations.FaultsArePrecise := by
  unfold Obligations.FaultsArePrecise
  intro s t hclear hfault
  refine ⟨fun i h => ?_, fun hidle h => ?_, fun i hi => exec_command_of_halted hi hfault⟩
  · rw [exec_fault_eq hclear h hfault]
  · obtain ⟨rest, -, rfl⟩ | ⟨hpermuting, -⟩ | ⟨-, cw, rest, -, hword⟩ | ⟨-, -, rfl⟩ := step_cases h
    · exact absurd (takeReset_flt _) hfault
    · simp [hidle] at hpermuting
    · obtain ⟨i, -, -, hexec⟩ | ⟨-, -, rfl⟩ := hword
      · rw [exec_fault_eq (s := { s with inputs := rest }) hclear hexec hfault]
      · rfl
    · exact absurd hclear hfault

/-! ## The causes by the bits of the word (R202) -/

/-- The operand byte `ARG[7:0]` is bits 7 to 0 of the word (R80, R82). -/
theorem argLow_argField (cw : CommandWord) : argLow (argField cw) = cw.extractLsb' 0 8 := by
  apply BitVec.eq_of_getLsbD_eq
  intro i hi
  simp [argLow, argField, hi]

/-- The opcodes of R81 are the four that R86 leaves. -/
theorem opcode_notMem_iff (op : Byte) : op ∉ [(1 : Byte), 2, 3, 4] ↔ op = 0x00 ∨ 0x05 ≤ op := by
  simp only [List.mem_cons, List.not_mem_nil, or_false]
  bv_omega

/-- Settles O10: the word is illegal, which the decoder finds on the same bits, or it is one of the four commands; a command
answers by O13, and `raisedBy` gives its cause. -/
theorem eachCauseIsRaisedExactlyWhen : Obligations.EachCauseIsRaisedExactlyWhen := by
  unfold Obligations.EachCauseIsRaisedExactlyWhen
  intro s cw rest hinv hclear hinputs op illegal
  have hidle : s.engine = .idle := hinv.1
  have hillegal : decode (.cmd cw) = .reject .illegalCommand ↔ illegal := by
    rw [decode_cmd_illegal_iff, argReserved_argField, ← opcode_notMem_iff]
    simp [illegal, op, opField, argField]
  obtain ⟨i, hd⟩ | hd := decode_cmd_instr_or_illegal cw
  · have hlegal : ¬ illegal := by rw [← hillegal, hd]; simp
    obtain ⟨t, ht⟩ := commandsNeverFailMidway i { s with inputs := rest } (decodeCommand_format hd) hinv hclear
    have hop : opField cw = op := rfl
    refine ⟨t, by rw [step_of_instr hidle hinputs hd, ht], ?_⟩
    rw [exec_flt (s := { s with inputs := rest }) hclear ht]
    obtain ⟨h, -, rfl⟩ | ⟨h, -, rfl⟩ | ⟨h, rfl⟩ | ⟨h, -, rfl⟩ := decodeCommand_cases hd <;> rw [hop] at h
    · -- `INIT`: the selector alone decides, in every phase.
      rw [argLow_argField]
      by_cases hsel : cw.extractLsb' 0 8 ∈ [(28 : Byte), 32, 48, 64]
      · rw [raisedBy, if_pos hsel]
        simpa [h, hlegal, or_iff_not_imp_left] using hsel
      · rw [raisedBy, if_neg hsel]
        simpa [h, hlegal] using hsel
    · cases s.phase <;> simp [raisedBy, Phase.fault, h, hlegal]
    · by_cases haligned : s.fill.toNat % 8 = 0 <;>
        cases s.phase <;> simp [raisedBy, Phase.fault, h, hlegal, haligned]
    · cases s.phase <;> simp [raisedBy, Phase.fault, h, hlegal]
  · have hill : illegal := hillegal.mp hd
    have hop : op ≠ 3#8 := by
      intro h
      simp [illegal, h] at hill
    exact ⟨_, step_of_illegal hidle hinputs hclear hd, by simp [hill, hop]⟩

/-! ## The idle block (R215) -/

theorem fetch_of_waiting {s : State} (hidle : s.engine = .idle) (hinputs : s.inputs = []) : fetch s = .waiting := by
  simp [fetch, hidle, hinputs]

/-- Settles O6. -/
theorem idleStepHoldsTheState : Obligations.IdleStepHoldsTheState := by
  unfold Obligations.IdleStepHoldsTheState
  intro s hidle hinputs
  rw [step, fetch_of_waiting hidle hinputs]

end Sys2Proof.Machine
end

section
/-! PROOF. Reset (spec section 70) and what the outputs show while a message is absorbed (R230, R248). -/

namespace Sys2Proof.Machine

/-! ## Reset (R230, R232) -/

/-- Settles O7: the fetch looks for a reset before it looks at the engine or at `FLT`. -/
theorem resetIsTakenInEveryState : Obligations.ResetIsTakenInEveryState := by
  unfold Obligations.ResetIsTakenInEveryState
  intro s rest hinputs
  exact ⟨_, step_of_rst hinputs, takeReset_phase _, takeReset_flt _, takeReset_seq _, takeReset_engine _,
    takeReset_inputs _, takeReset_hostBE _⟩

/-! ## The three outputs under `ABSORB` (R30, R248) -/

/-- The outputs of two blocks in mid-message can differ in `OUT` only. -/
theorem Absorbing.outputs_eq {s s' : State} (h : Absorbing s) (h' : Absorbing s') (hout : s.out = s'.out) :
    oPhase s = oPhase s' ∧ oFault s = oFault s' ∧ oDigest s = oDigest s' := by
  obtain ⟨hclear, hphase, -⟩ := h
  obtain ⟨hclear', hphase', -⟩ := h'
  refine ⟨?_, ?_, ?_⟩
  · rw [oPhase, oPhase, hphase, hphase']
  · rw [oFault, oFault, hclear, hclear']
  · rw [oDigest, oDigest, hout]

/-- In mid-message `ABSORB` completes, with or without a permutation at its end; the block stays in mid-message and `OUT` is
as before. -/
theorem exec_absorb_keeps_absorbing_out {s : State} (h : Absorbing s) (b : Byte) :
    ∃ t, exec (.absorb b) s = .next t ∧ Absorbing t ∧ t.out = s.out := by
  obtain ⟨t, hexec, habsorbing, -⟩ := exec_absorb_keeps_absorbing h b
  exact ⟨t, hexec, habsorbing, by rw [execAbsorb_frame hexec]⟩

/-- Settles O28: both blocks are still in mid-message, with the `OUT` they had. -/
theorem absorbShowsTheHostNothing : Obligations.AbsorbShowsTheHostNothing := by
  unfold Obligations.AbsorbShowsTheHostNothing
  intro s s' b b' h h' hout
  obtain ⟨t, hexec, habsorbing, hkeep⟩ := exec_absorb_keeps_absorbing_out h b
  obtain ⟨t', hexec', habsorbing', hkeep'⟩ := exec_absorb_keeps_absorbing_out h' b'
  have houtT : t.out = t'.out := by rw [hkeep, hout, hkeep']
  exact ⟨t, t', hexec, hexec', habsorbing.outputs_eq habsorbing' houtT⟩

end Sys2Proof.Machine
end

section
/-! PROOF. The byte view `ST` (spec section 20): a byte read after a byte write, and a word read as eight byte reads. -/

namespace Sys2Proof.Machine

/-! ## `MemWrite(a, 1, b)` (R54) -/

/-- A byte write is defined inside `ST` only, and replaces one byte of one lane. -/
theorem memWrite1_eq_some {a : Nat} {b : Byte} {x y : Lanes} :
    memWrite1 a b x = some y ↔ ∃ h : a < 200, x.set (a / 8) (setByteOf x[a / 8] (a % 8) b) = y := by
  by_cases h : a < 200 <;> simp [memWrite1, h]

/-- Settles O45: the byte read is the one written, another byte of its lane, or a byte of a lane that is not written. -/
theorem byteWriteThenRead : Obligations.ByteWriteThenRead := by
  unfold Obligations.ByteWriteThenRead
  intro x y a c b hwrite
  obtain ⟨ha, rfl⟩ := memWrite1_eq_some.mp hwrite
  by_cases hlane : c / 8 = a / 8
  · rw [memRead1_of_lt (by omega), memRead1_of_lt (by omega)]
    simp only [hlane, Vector.getElem_set_self]
    split
    case isTrue hsame => rw [hsame, byteOf_setByteOf_same _ (by omega)]
    case isFalse hother => rw [byteOf_setByteOf_ne _ (by omega) (by omega)]
  · rw [memRead1_set_of_lane_ne (by omega) hlane, if_neg fun hsame => hlane (by rw [hsame])]

/-! ## `MemRead(a, 8)` (R53) -/

theorem toNat_byteOf (w : Lane) (k : Nat) : (byteOf w k).toNat = w.toNat / 2 ^ (8 * k) % 2 ^ 8 := by
  rw [byteOf, BitVec.extractLsb'_toNat, Nat.shiftRight_eq_div_pow]

/-- A lane is the sum of its eight bytes, the lowest at weight 1 (R51). -/
theorem toNat_eq_sum_bytes (w : Lane) :
    w.toNat = (byteOf w 0).toNat + 2 ^ 8 * (byteOf w 1).toNat + 2 ^ 16 * (byteOf w 2).toNat +
      2 ^ 24 * (byteOf w 3).toNat + 2 ^ 32 * (byteOf w 4).toNat + 2 ^ 40 * (byteOf w 5).toNat +
      2 ^ 48 * (byteOf w 6).toNat + 2 ^ 56 * (byteOf w 7).toNat := by
  have hw : w.toNat < 2 ^ 64 := w.isLt
  simp only [toNat_byteOf]
  omega

theorem memRead8_eq_some {a : Nat} {w : Lane} {x : Lanes} :
    memRead8 a x = some w ↔ ∃ h : a % 8 = 0 ∧ a < 200, x[a / 8] = w := by
  by_cases h : a % 8 = 0 ∧ a < 200 <;> simp [memRead8, h]

/-- Settles O46: the eight bytes from an aligned address on are those of one lane. -/
theorem wordReadIsLittleEndian : Obligations.WordReadIsLittleEndian := by
  unfold Obligations.WordReadIsLittleEndian
  intro x a w hread
  obtain ⟨⟨haligned, ha⟩, rfl⟩ := memRead8_eq_some.mp hread
  refine ⟨byteOf x[a / 8], fun k hk => ?_, toNat_eq_sum_bytes _⟩
  have hlane : (a + k) / 8 = a / 8 := by omega
  have hbyte : (a + k) % 8 = k := by omega
  rw [memRead1_of_lt (by omega)]
  simp only [hlane, hbyte]

end Sys2Proof.Machine
end

section
/-! PROOF. The ROM tables against the algorithms that generate them (R31, R32, R33). -/

namespace Sys2Proof.Machine

/-- One step of the triangular walk, on coordinates `(col, row)` (R31). -/
def walkStep (q : Fin 5 × Fin 5) : Fin 5 × Fin 5 := (q.2, 2 * q.1 + 3 * q.2)

/-- One step of the shift register (R33). -/
def shiftStep (R : Byte) : Byte := (R <<< 1) ^^^ (if R.getLsbD 7 then 0x71 else 0)

theorem rhoOff_walk : ∀ t : Fin 24, ∀ p : Fin 25, walkStep^[t.val] (1, 0) = (colOf p, rowOf p) →
    rhoOff[p] = ((t.val + 1) * (t.val + 2) / 2) % 64 := by decide

theorem piDst_coordinates : ∀ p : Fin 25,
    piDst[p].val = (rowOf p).val + 5 * ((2 * (colOf p).val + 3 * (rowOf p).val) % 5) := by decide

theorem piDst_fixed : ∀ p : Fin 25, piDst[p] = p ↔ p = 0 := by decide

theorem roundConst_mask : ∀ r : Fin 24, roundConst[r] &&& 0x800000008000808B = roundConst[r] := by decide

theorem roundConst_shift : ∀ (r : Fin 24) (j : Fin 7), roundConst[r].getLsbD (2 ^ j.val - 1) =
    (shiftStep^[j.val + 7 * r.val] 1).getLsbD 0 := by decide

/-- Settles O43: closed facts, one for each table and algorithm. -/
theorem romTablesFollowTheirGenerators : Obligations.RomTablesFollowTheirGenerators := by
  unfold Obligations.RomTablesFollowTheirGenerators
  exact ⟨⟨rfl, rhoOff_walk⟩, piDst_coordinates, fun p => ⟨piSrc_piDst p, piDst_fixed p⟩, roundConst_mask,
    roundConst_shift⟩

end Sys2Proof.Machine
end

section
/-! PROOF. The laws of the step mappings that the spec derives (section 40): the fused pass, linearity, rotation and
inverses. -/

namespace Sys2Proof.Machine

/-! ## The fused pass (R132) -/

/-- Settles O38: π gathers from the lane it scatters, and ρ and θ are lane by lane. -/
theorem fusedPassAgrees : Obligations.FusedPassAgrees := by
  unfold Obligations.FusedPassAgrees
  intro x i
  simp only [getElem_piLanes, piSrc_piDst, getElem_rhoLanes, getElem_thetaLanes]

/-! ## Linearity over XOR (R113, R117, R121) -/

theorem parity_xorLanes (x y : Lanes) (col : Fin 5) : parity (xorLanes x y) col = parity x col ^^^ parity y col := by
  simp only [parity, laneAt_xorLanes]
  ac_rfl

theorem correction_xorLanes (x y : Lanes) (col : Fin 5) :
    correction (xorLanes x y) col = correction x col ^^^ correction y col := by
  simp only [correction, parity_xorLanes, rotl_eq_rotateLeft _ (show 1 < 64 by decide), rotateLeft_xor]
  ac_rfl

theorem thetaLanes_xorLanes (x y : Lanes) : thetaLanes (xorLanes x y) = xorLanes (thetaLanes x) (thetaLanes y) := by
  apply lanes_ext_grid
  intro col row
  simp only [laneAt_xorLanes, laneAt_thetaLanes, correction_xorLanes]
  ac_rfl

theorem rhoLanes_xorLanes (x y : Lanes) : rhoLanes (xorLanes x y) = xorLanes (rhoLanes x) (rhoLanes y) := by
  apply lanes_ext
  intro i
  simp only [getElem_rhoLanes, getElem_xorLanes_fin, rotateLeft_xor]

theorem piLanes_xorLanes (x y : Lanes) : piLanes (xorLanes x y) = xorLanes (piLanes x) (piLanes y) := by
  apply lanes_ext
  intro q
  simp only [getElem_piLanes, getElem_xorLanes_fin]

/-- Settles O39: a rotation distributes over XOR, and θ adds only XORs to it, ρ and π nothing. -/
theorem linearMappings : Obligations.LinearMappings := by
  unfold Obligations.LinearMappings
  exact fun x y => ⟨thetaLanes_xorLanes x y, rhoLanes_xorLanes x y, piLanes_xorLanes x y⟩

/-! ## A rotation of every lane (R113, R125) -/

/-- All lanes rotated by the same amount. -/
def turnLanes (n : Nat) (x : Lanes) : Lanes := Vector.ofFn fun i : Fin 25 => x[i].rotateLeft n

theorem laneAt_turnLanes (n : Nat) (x : Lanes) (col row : Fin 5) :
    laneAt (turnLanes n x) col row = (laneAt x col row).rotateLeft n := by
  simp only [laneAt_eq, turnLanes, Vector.getElem_ofFn, Fin.getElem_fin]

theorem parity_turnLanes (n : Nat) (x : Lanes) (col : Fin 5) :
    parity (turnLanes n x) col = (parity x col).rotateLeft n := by
  simp only [parity, laneAt_turnLanes, rotateLeft_xor]

theorem correction_turnLanes (n : Nat) (x : Lanes) (col : Fin 5) :
    correction (turnLanes n x) col = (correction x col).rotateLeft n := by
  simp only [correction, parity_turnLanes, rotl_eq_rotateLeft _ (show 1 < 64 by decide), rotateLeft_xor,
    rotateLeft_rotateLeft, Nat.add_comm]

theorem thetaLanes_turnLanes (n : Nat) (x : Lanes) : thetaLanes (turnLanes n x) = turnLanes n (thetaLanes x) := by
  apply lanes_ext_grid
  intro col row
  simp only [laneAt_thetaLanes, laneAt_turnLanes, correction_turnLanes, rotateLeft_xor]

theorem chiLanes_turnLanes (n : Nat) (x : Lanes) : chiLanes (turnLanes n x) = turnLanes n (chiLanes x) := by
  apply lanes_ext_grid
  intro col row
  simp only [laneAt_chiLanes, laneAt_turnLanes, rotateLeft_xor, rotateLeft_and, rotateLeft_not]

/-- Settles O40: a rotation distributes over the bit operations of both mappings, and commutes with the rotation by one that
θ makes. -/
theorem thetaAndChiCommuteWithRotation : Obligations.ThetaAndChiCommuteWithRotation := by
  unfold Obligations.ThetaAndChiCommuteWithRotation
  exact fun x n => ⟨thetaLanes_turnLanes n x, chiLanes_turnLanes n x⟩

/-! ## Inverses (R117, R121, R129) -/

/-- The rest of the way round brings each lane back. -/
theorem rhoLanes_rotateLeft_back (x : Lanes) (i : Fin 25) :
    (rhoLanes x)[i].rotateLeft ((64 - rhoOff[i]) % 64) = x[i] := by
  have hoff := rhoOff_lt i
  rw [getElem_rhoLanes, rotateLeft_rotateLeft, rotateLeft_of_mod (by omega)]

/-- The position from which π fills `q`. -/
def piFrom (q : Fin 25) : Fin 25 := piSrc[q]

theorem getElem_piLanes_iterate (n : Nat) (x : Lanes) (q : Fin 25) : (piLanes^[n] x)[q] = x[piFrom^[n] q] := by
  induction n generalizing q with
  | zero => rfl
  | succ n ih =>
    rw [Function.iterate_succ_apply', getElem_piLanes]
    exact ih (piFrom q)

/-- Each cycle of the gather table has a length that divides 24 (R121). -/
theorem piFrom_iterate : ∀ q : Fin 25, piFrom^[24] q = q := by decide

theorem piLanes_iterate (x : Lanes) : piLanes^[24] x = x := by
  apply lanes_ext
  intro q
  simp only [getElem_piLanes_iterate, piFrom_iterate]

theorem iotaLanes_iotaLanes (rnd : Fin 24) (x : Lanes) : iotaLanes rnd (iotaLanes rnd x) = x := by
  simp [iotaLanes]

/-- Settles O41: each law lane by lane, or position by position. -/
theorem inversesOfRhoPiIota : Obligations.InversesOfRhoPiIota := by
  unfold Obligations.InversesOfRhoPiIota
  exact fun x rnd => ⟨rhoLanes_rotateLeft_back x, piLanes_iterate x, iotaLanes_iotaLanes rnd x⟩

end Sys2Proof.Machine
end

section
/-! PROOF. The permutation as a bijection (section 41): each of the five mappings is injective. -/

namespace Sys2Proof.Machine

/-! ## θ is injective (R146)

The column parities decide what θ XORs in, and θ maps them by `C[col] ↦ C[col] XOR C[col+4] XOR rotl(C[col+1], 1)`. Such a
map applied twice is one of the same form with all offsets and rotations doubled, since the mixed terms cancel. After six
doublings the rotation is by 64, and the map that is left has an inverse of the same form. -/

/-- Each column parity XORed with two others, each of them rotated. -/
def parityMix (a : Fin 5) (m : Nat) (b : Fin 5) (n : Nat) (C : Fin 5 → Lane) (col : Fin 5) : Lane :=
  C col ^^^ (C (col + a)).rotateLeft m ^^^ (C (col + b)).rotateLeft n

/-- What is XORed in twice cancels. -/
theorem xor_mixed_cancel (u v w t p q : Lane) :
    u ^^^ v ^^^ w ^^^ (v ^^^ p ^^^ t) ^^^ (w ^^^ t ^^^ q) = u ^^^ p ^^^ q := by
  calc _ = u ^^^ p ^^^ q ^^^ (v ^^^ v) ^^^ (w ^^^ w) ^^^ (t ^^^ t) := by ac_rfl
    _ = u ^^^ p ^^^ q := by simp only [BitVec.xor_self, BitVec.xor_zero]

theorem parityMix_parityMix (a : Fin 5) (m : Nat) (b : Fin 5) (n : Nat) (C : Fin 5 → Lane) :
    parityMix a m b n (parityMix a m b n C) = parityMix (a + a) (m + m) (b + b) (n + n) C := by
  funext col
  simp only [parityMix, rotateLeft_xor, rotateLeft_rotateLeft, add_assoc, add_comm b a, Nat.add_comm n m]
  exact xor_mixed_cancel _ _ _ _ _ _

theorem parityMix_injective_of_double {a : Fin 5} {m : Nat} {b : Fin 5} {n : Nat}
    (h : Function.Injective (parityMix (a + a) (m + m) (b + b) (n + n))) : Function.Injective (parityMix a m b n) := by
  intro C C' heq
  apply h
  rw [← parityMix_parityMix, heq, parityMix_parityMix]

/-- Past the six doublings: `1 + x + x⁴` times `1 + x² + x³` is 1 modulo `x⁵ - 1`, over two elements. -/
theorem parityMix_leftInverse : Function.LeftInverse (parityMix 2 0 3 0) (parityMix 1 0 4 64) := by
  intro C
  funext col
  simp only [parityMix, rotateLeft_of_mod (n := 0) rfl, rotateLeft_of_mod (n := 64) rfl, add_assoc, Fin.reduceAdd]
  generalize C col = u, C (col + 1) = v, C (col + 2) = w, C (col + 3) = y, C (col + 4) = z
  calc _ = u ^^^ (v ^^^ v) ^^^ (w ^^^ w) ^^^ (y ^^^ y) ^^^ (z ^^^ z) := by ac_rfl
    _ = u := by simp only [BitVec.xor_self, BitVec.xor_zero]

theorem parityMix_injective : Function.Injective (parityMix 4 0 1 1) := by
  iterate 6 apply parityMix_injective_of_double
  exact parityMix_leftInverse.injective

/-- The correction word is XORed into five lanes of its column, so the parity has it once. -/
theorem parity_thetaLanes (x : Lanes) : parity (thetaLanes x) = parityMix 4 0 1 1 (parity x) := by
  funext col
  calc parity (thetaLanes x) col =
        parity x col ^^^ correction x col ^^^ (correction x col ^^^ correction x col) ^^^
          (correction x col ^^^ correction x col) := by
        simp only [parity, laneAt_thetaLanes]
        ac_rfl
    _ = parity x col ^^^ correction x col := by simp only [BitVec.xor_self, BitVec.xor_zero]
    _ = parityMix 4 0 1 1 (parity x) col := by
        rw [correction, rotl_eq_rotateLeft _ (by decide), parityMix, rotateLeft_of_mod (n := 0) rfl, BitVec.xor_assoc]

theorem thetaLanes_injective : Function.Injective thetaLanes := by
  intro x y h
  have hparity : parity x = parity y := parityMix_injective (by rw [← parity_thetaLanes, ← parity_thetaLanes, h])
  apply lanes_ext_grid
  intro col row
  have hlane : laneAt (thetaLanes x) col row = laneAt (thetaLanes y) col row := by rw [h]
  rw [laneAt_thetaLanes, laneAt_thetaLanes, correction, correction, hparity] at hlane
  exact (BitVec.xor_left_inj _).mp hlane

/-! ## The other four mappings -/

theorem rhoLanes_injective : Function.Injective rhoLanes := by
  intro x y h
  apply lanes_ext
  intro i
  rw [← rhoLanes_rotateLeft_back x, h, rhoLanes_rotateLeft_back]

theorem piLanes_injective : Function.Injective piLanes :=
  Function.LeftInverse.injective (g := piLanes^[23]) fun x => piLanes_iterate x

/-- The inverse of χ on each row: two nested mixes of the row's five lanes. -/
def chiBack (x : Lanes) : Lanes := ofGrid fun col row =>
  laneAt x col row ^^^ (~~~ laneAt x (col + 1) row &&&
    (laneAt x (col + 2) row ^^^ (~~~ laneAt x (col + 3) row &&& laneAt x (col + 4) row)))

theorem chiBack_chiLanes : Function.LeftInverse chiBack chiLanes := by
  intro x
  apply lanes_ext_grid
  intro col row
  simp only [chiBack, laneAt_ofGrid, laneAt_chiLanes, add_assoc, Fin.reduceAdd, add_zero]
  generalize laneAt x col row = u, laneAt x (col + 1) row = v, laneAt x (col + 2) row = w,
    laneAt x (col + 3) row = y, laneAt x (col + 4) row = z
  ext i hi
  simp only [BitVec.getElem_xor, BitVec.getElem_and, BitVec.getElem_not]
  generalize u[i] = u, v[i] = v, w[i] = w, y[i] = y, z[i] = z
  revert u v w y z
  decide

theorem iotaLanes_injective (rnd : Fin 24) : Function.Injective (iotaLanes rnd) :=
  Function.LeftInverse.injective (iotaLanes_iotaLanes rnd)

/-! ## The permutation (R146) -/

theorem roundLanes_injective (rnd : Fin 24) : Function.Injective fun x => roundLanes x rnd :=
  (iotaLanes_injective rnd).comp <| chiBack_chiLanes.injective.comp <| piLanes_injective.comp <|
    rhoLanes_injective.comp thetaLanes_injective

theorem foldl_roundLanes_injective (rnds : List (Fin 24)) :
    Function.Injective fun x : Lanes => rnds.foldl roundLanes x := by
  induction rnds with
  | nil => exact Function.injective_id
  | cons rnd rnds ih => exact ih.comp (roundLanes_injective rnd)

theorem finite_lanes : Finite Lanes :=
  Finite.of_injective (fun (x : Lanes) (i : Fin 25) => x[i]) fun _ _ h => lanes_ext (congrFun h)

/-- Settles O42: each of the five mappings is injective, so each round and the whole permutation is; and the states of 1600
bits are finitely many. -/
theorem keccakFIsABijection : Obligations.KeccakFIsABijection := by
  unfold Obligations.KeccakFIsABijection
  have hfinite : Finite Lanes := finite_lanes
  exact Finite.injective_iff_bijective.mp (foldl_roundLanes_injective (List.finRange 24))

end Sys2Proof.Machine
end

section
/-! PROOF. A whole hash (spec section 42): the fill index after a message, and the digest of a run against the closed
formula. -/

namespace Sys2Proof.Machine

/-! ## The start of a hash (R161, R164) -/

section
variable {alg : Byte} (halg : alg ∈ [(28 : Byte), 32, 48, 64])
include halg

theorem exec_init_of_legal {s : State} (hclear : s.flt = .clear) :
    exec (.init alg) s = .next (startHash alg s) := by
  rw [exec, execInit, accept_clear hclear, if_pos (legalSelector_iff.mpr halg)]

theorem toNat_rateOf : (rateOf alg).toNat = 200 - 2 * alg.toNat := by
  simp only [List.mem_cons, List.not_mem_nil, or_false] at halg
  obtain h | h | h | h := halg <;> rw [h] <;> decide

theorem startHash_absorbing {s : State} (hclear : s.flt = .clear) : Absorbing (startHash alg s) :=
  ⟨hclear, rfl, startHash_contextOk halg s⟩

end

/-- Settles O25: `FILL` starts at 0 and `UPDATE` counts its bytes modulo `RATE`. -/
theorem fillCountsTheMessageBytes : Obligations.FillCountsTheMessageBytes := by
  unfold Obligations.FillCountsTheMessageBytes
  intro s alg bytes hclear halg
  obtain ⟨t, hrun, habsorbing, hdsize, -, -, hfill⟩ :=
    execAll_update_keeps_absorbing (startHash_absorbing halg hclear) bytes
  refine ⟨t, ?_, habsorbing, hdsize, ?_⟩
  · rw [execAll_cons, exec_init_of_legal halg hclear, andThen_next, hrun]
  · rw [hfill, startHash_fill, startHash_rate, toNat_rateOf halg]
    simp

/-! ## The formula, block by block (R179) -/

/-- Block `j` of a message that need not be padded; short or empty at the message's end. -/
def chunk (r : Nat) (m : List Byte) (j : Nat) : List Byte := (m.drop (j * r)).take r

/-- Block `j` XORed in, then the permutation. -/
def absorbChunk (r : Nat) (m : List Byte) (x : Lanes) (j : Nat) : Lanes :=
  keccakLanes (xorLanes x (lanesOfBytes (chunk r m j)))

/-- The state after the first `n` blocks of a message. -/
def absorbChunks (r : Nat) (m : List Byte) (n : Nat) : Lanes := (List.range n).foldl (absorbChunk r m) zeroLanes

/-- The state after the message `m`: its full blocks absorbed, the bytes after them XORed in. -/
def partialSponge (r : Nat) (m : List Byte) : Lanes :=
  xorLanes (absorbChunks r m (m.length / r)) (lanesOfBytes (chunk r m (m.length / r)))

theorem partialSponge_nil (r : Nat) : partialSponge r [] = zeroLanes := by
  rw [partialSponge, chunk, List.drop_nil, List.take_nil, xorLanes_nil, List.length_nil, Nat.zero_div, absorbChunks,
    List.range_zero, List.foldl_nil]

theorem absorbChunks_succ (r : Nat) (m : List Byte) (n : Nat) :
    absorbChunks r m (n + 1) = keccakLanes (xorLanes (absorbChunks r m n) (lanesOfBytes (chunk r m n))) := by
  rw [absorbChunks, List.range_succ, List.foldl_append, List.foldl_cons, List.foldl_nil, absorbChunk, absorbChunks]

/-- A full block does not depend on what comes after it. -/
theorem chunk_append {r j : Nat} {m : List Byte} (h : (j + 1) * r ≤ m.length) (l : List Byte) :
    chunk r (m ++ l) j = chunk r m j := by
  rw [Nat.add_mul, Nat.one_mul] at h
  rw [chunk, chunk, List.drop_append_of_le_length (by omega), List.take_append_of_le_length]
  rw [List.length_drop]
  omega

theorem absorbChunks_append {r n : Nat} {m : List Byte} (h : n * r ≤ m.length) (l : List Byte) :
    absorbChunks r (m ++ l) n = absorbChunks r m n := by
  induction n with
  | zero => rw [absorbChunks, absorbChunks, List.range_zero, List.foldl_nil, List.foldl_nil]
  | succ n ih =>
    rw [absorbChunks_succ, absorbChunks_succ, chunk_append h, ih ((Nat.mul_le_mul_right r n.le_succ).trans h)]

section
variable {r : Nat} (hr : 0 < r) (m : List Byte)
include hr

theorem length_chunk_last : (chunk r m (m.length / r)).length = m.length % r := by
  have hlt := Nat.mod_lt m.length hr
  have hdiv := Nat.div_add_mod' m.length r
  rw [chunk, List.length_take, List.length_drop]
  omega

/-- What fits into the block that the message has begun comes after the message's last bytes. -/
theorem chunk_last_append {l : List Byte} (hl : m.length % r + l.length ≤ r) :
    chunk r (m ++ l) (m.length / r) = chunk r m (m.length / r) ++ l := by
  have hlt := Nat.mod_lt m.length hr
  have hdiv := Nat.div_add_mod' m.length r
  have hrest : (m.drop (m.length / r * r)).length = m.length % r := by
    rw [List.length_drop]
    omega
  have hfits : (m.drop (m.length / r * r) ++ l).length ≤ r := by
    rw [List.length_append]
    omega
  rw [chunk, chunk, List.drop_append_of_le_length (by omega), List.take_of_length_le hfits,
    List.take_of_length_le (by omega)]

/-- One more byte is XORed in at `FILL`, and a block it completes is permuted (R163, R164). -/
theorem partialSponge_snoc (hmax : r ≤ 200) (b : Byte) (hf : m.length % r / 8 < 25) :
    partialSponge r (m ++ [b]) =
      let y := (partialSponge r m).set (m.length % r / 8)
        ((partialSponge r m)[m.length % r / 8] ^^^ byteAt b (m.length % r % 8))
      if m.length % r + 1 = r then keccakLanes y else y := by
  have hlt := Nat.mod_lt m.length hr
  have hdiv := Nat.div_add_mod' m.length r
  have hlast : chunk r (m ++ [b]) (m.length / r) = chunk r m (m.length / r) ++ [b] := chunk_last_append hr m hlt
  have hxor := xorLanes_snoc (absorbChunks r m (m.length / r)) (chunk r m (m.length / r)) b
    (by rw [length_chunk_last hr]; omega)
  simp only [length_chunk_last hr] at hxor
  simp only [partialSponge]
  rw [hxor, List.length_append, List.length_singleton]
  split
  case isTrue hfull =>
    have hcount : m.length + 1 = (m.length / r + 1) * r := by rw [Nat.add_mul]; omega
    have hnone : chunk r (m ++ [b]) (m.length / r + 1) = [] := by
      rw [chunk, ← hcount, List.drop_of_length_le (by simp), List.take_nil]
    rw [hcount, Nat.mul_div_cancel _ hr, hnone, xorLanes_nil, absorbChunks_succ, hlast,
      absorbChunks_append (Nat.div_mul_le_self _ _)]
  case isFalse hpartial =>
    have hcount : (m.length + 1) / r = m.length / r :=
      Nat.div_eq_of_lt_le (by omega) (by rw [Nat.add_mul]; omega)
    rw [hcount, hlast, absorbChunks_append (Nat.div_mul_le_self _ _)]

end

theorem length_padding {r : Nat} (hr : 0 < r) (n : Nat) : (padding r n).length = r - n % r := by
  have hlt := Nat.mod_lt n hr
  rw [padding]
  split
  case isTrue hone => simp [hone]
  case isFalse hmore => simp; omega

/-- The last block of the formula is the message's tail, padded. -/
theorem spongeLanes_eq {r : Nat} (hr : 0 < r) (m : List Byte) :
    spongeLanes r m = keccakLanes (xorLanes (absorbChunks r m (m.length / r))
      (lanesOfBytes (chunk r m (m.length / r) ++ padding r m.length))) := by
  have hlt := Nat.mod_lt m.length hr
  have hblocks : spongeLanes r m = absorbChunks r (m ++ padding r m.length) (m.length / r + 1) := by
    rw [spongeLanes, absorbChunks]
    congr 1
  rw [hblocks, absorbChunks_succ, absorbChunks_append (Nat.div_mul_le_self _ _),
    chunk_last_append hr m (by rw [length_padding hr]; omega)]

/-! ## The digest buffer after the squeezer (R176) -/

/-- `OUT` with its first `d` bytes taken from the lanes. -/
def squeezed (d : Nat) (x : Lanes) (o : OutBytes) : OutBytes :=
  Vector.ofFn fun i : Fin 64 => if i.val < d then byteOf x[i.val / 8] (i.val % 8) else o[i]

theorem toList_squeezed_take {d : Nat} (hd : d ≤ 64) (x : Lanes) (o : OutBytes) :
    (squeezed d x o).toList.take d = firstBytes d x := by
  apply List.ext_getElem
  · simp [firstBytes, hd]
  · intro a ha _
    have had : a < d := by
      rw [List.length_take] at ha
      omega
    simp [squeezed, firstBytes, memRead1, had, show a < 200 by omega]

theorem toList_squeezed_drop (d : Nat) (x : Lanes) (o : OutBytes) :
    (squeezed d x o).toList.drop d = o.toList.drop d := by
  apply List.ext_getElem
  · simp
  · intro a _ _
    simp [squeezed]

/-! ## A hash in progress -/

/-- Between commands, after `INIT alg` and the message bytes `m`, with `o` in `OUT`: `FILL` and the lanes are those of the
formula. -/
structure Hashing (alg : Byte) (m : List Byte) (o : OutBytes) (s : State) : Prop where
  absorbing : Absorbing s
  idle : s.engine = .idle
  dsize : s.dsize = alg
  fill : s.fill.toNat = m.length % s.rate.toNat
  lanes : s.lanes = partialSponge s.rate.toNat m
  out : s.out = o

theorem Hashing.setInputs {alg : Byte} {m : List Byte} {o : OutBytes} {s : State} (h : Hashing alg m o s)
    (inputs : List HostInput) : Hashing alg m o { s with inputs := inputs } :=
  ⟨h.absorbing, h.idle, h.dsize, h.fill, h.lanes, h.out⟩

theorem startHash_hashing {alg : Byte} (halg : alg ∈ [(28 : Byte), 32, 48, 64]) {s : State} (hclear : s.flt = .clear)
    (hidle : s.engine = .idle) : Hashing alg [] s.out (startHash alg s) where
  absorbing := startHash_absorbing halg hclear
  idle := hidle
  dsize := rfl
  fill := by simp
  lanes := by rw [startHash_lanes, partialSponge_nil]
  out := rfl

theorem advanceFill_lanes (n : Byte) (s : State) :
    (advanceFill n s).lanes = if s.fill + n = s.rate then keccakLanes s.lanes else s.lanes := by
  rw [advanceFill_eq_permuted]
  split <;> rfl

theorem advanceFill_idle {s : State} (hidle : s.engine = .idle) (n : Byte) : (advanceFill n s).engine = .idle := by
  rw [advanceFill_eq_permuted]
  split
  · rfl
  · exact hidle

section
variable {alg : Byte} {m : List Byte} {o : OutBytes} {s : State} (h : Hashing alg m o s)
include h

/-- One `ABSORB` is one more byte of the message (R163). -/
theorem Hashing.absorb (b : Byte) : ∃ t, exec (.absorb b) s = .next t ∧ Hashing alg (m ++ [b]) o t := by
  obtain ⟨habsorbing, hidle, hdsize, hfill, hlanes, hout⟩ := h
  obtain ⟨-, -, hctx⟩ := id habsorbing
  obtain ⟨-, hmax, hlt⟩ := hctx.toNat_bounds
  have hlane : s.fill.toNat / 8 < 25 := by omega
  have hfull : s.fill + 1 = s.rate ↔ s.fill.toNat + 1 = s.rate.toNat := by bv_omega
  have hsnoc := partialSponge_snoc (r := s.rate.toNat) (by omega) m (by omega) b (by omega)
  simp only [← hfill, ← hlanes] at hsnoc
  obtain ⟨t, hexec, habsorbing', hdsize', hrate', -, hfill'⟩ := exec_absorb_keeps_absorbing habsorbing b
  have ht : t = advanceFill 1 (xorLane (s.fill.toNat / 8) hlane (byteAt b (s.fill.toNat % 8)) s) := by
    rw [exec_absorb_of_absorbing habsorbing hlane (Nat.mod_lt _ (by decide)) (Nat.div_add_mod _ 8).symm] at hexec
    exact (Host.Outcome.next.inj hexec).symm
  refine ⟨t, hexec, habsorbing', ?_, hdsize'.trans hdsize, ?_, ?_, ?_⟩
  · rw [ht]
    apply advanceFill_idle
    exact hidle
  · rw [hfill', hfill, hrate', Nat.mod_add_mod, List.length_append, List.length_singleton]
  · rw [hrate', hsnoc, ht, advanceFill_lanes]
    simp only [xorLane, hfull]
  · rw [execAbsorb_frame hexec, hout]

/-- The two padding bytes make the last block of the formula (R174, R179). -/
theorem Hashing.keccakLanes_padded (hfirst : s.fill.toNat / 8 < 25) (hlast : (s.rate.toNat - 1) / 8 < 25) :
    let x := s.lanes.set (s.fill.toNat / 8) (s.lanes[s.fill.toNat / 8] ^^^ byteAt 0x06 (s.fill.toNat % 8))
    keccakLanes (x.set ((s.rate.toNat - 1) / 8)
      (x[(s.rate.toNat - 1) / 8] ^^^ byteAt 0x80 ((s.rate.toNat - 1) % 8))) = spongeLanes s.rate.toNat m := by
  obtain ⟨⟨-, -, hctx⟩, -, -, hfill, hlanes, -⟩ := h
  obtain ⟨-, hmax, hlt⟩ := hctx.toNat_bounds
  have htail := length_chunk_last (r := s.rate.toNat) (by omega) m
  have hpad := xorLanes_padding (absorbChunks s.rate.toNat m (m.length / s.rate.toNat))
    (p := chunk s.rate.toNat m (m.length / s.rate.toNat)) (by omega) (by omega) htail.symm
  rw [partialSponge] at hlanes
  simp only [htail, ← hfill, ← hlanes] at hpad
  intro x
  rw [spongeLanes_eq (by omega), ← hpad]

/-- `FINAL` delivers the digest of the message (R172, R176). -/
theorem Hashing.final :
    ∃ t, exec .final s = .next t ∧ t.flt = .clear ∧ t.phase = .done ∧ t.lanes = zeroLanes ∧
      t.out.toList.take alg.toNat = sha3 alg.toNat m ∧ t.out.toList.drop alg.toNat = o.toList.drop alg.toNat := by
  have hpad := h.keccakLanes_padded
  obtain ⟨⟨hclear, hphase, hctx⟩, -, rfl, -, -, rfl⟩ := h
  obtain ⟨hdsize, -, -⟩ := hctx.toNat_bounds
  obtain ⟨-, -, hcompletes, -⟩ := finalDeliversTheDigest s hclear
  obtain ⟨e, hfirst, hlast, hexec⟩ := hcompletes hphase hctx
  have hrate : s.rate.toNat = 200 - 2 * s.dsize.toNat := by
    obtain ⟨hlegal, hrate, -⟩ := hctx
    rw [hrate]
    exact toNat_rateOf hlegal
  refine ⟨_, hexec, hclear, rfl, rfl, ?_⟩
  rw [sha3, ← hrate, ← hpad hfirst hlast]
  exact ⟨toList_squeezed_take hdsize _ _, toList_squeezed_drop _ _ _⟩

end

/-! ## The run of a hash (R249) -/

theorem present_cons {i : Instr} (hi : i.format = .cmd) (is : List Instr) :
    ∃ cw, decode (.cmd cw) = .instr i ∧ present (i :: is) = .command cw :: present is := by
  have hd := decode_encode i
  cases i with
  | init _ | absorb _ | absorbw _ | final => exact ⟨_, hd, rfl⟩
  | theta | rho | pi | chi | iota => simp [Instr.format] at hi

theorem length_present {is : List Instr} (h : ∀ i ∈ is, i.format = .cmd) : (present is).length = is.length := by
  induction is with
  | nil => rfl
  | cons i is ih =>
    obtain ⟨hi, his⟩ := List.forall_mem_cons.mp h
    obtain ⟨cw, -, hpresent⟩ := present_cons hi is
    rw [hpresent, List.length_cons, List.length_cons, ih his]

theorem length_present_hash (alg : Byte) (bytes : List Byte) :
    (present (hash alg bytes)).length = bytes.length + 1 + 1 := by
  have hcommands : ∀ i ∈ hash alg bytes, i.format = .cmd := by
    simp [hash, update, or_imp, forall_and, Instr.format]
  rw [length_present hcommands]
  simp [hash, update]

/-- An idle block runs the command at its port in one step. -/
theorem run_present_cons {i : Instr} {is : List Instr} {s t : State} (hi : i.format = .cmd) (hidle : s.engine = .idle)
    (hinputs : s.inputs = present (i :: is)) (hexec : exec i { s with inputs := present is } = .next t) (n : Nat) :
    Host.Core.run Sys2Proof.core (n + 1) s = Host.Core.run Sys2Proof.core n t ∧ t.inputs = present is := by
  obtain ⟨cw, hd, hpresent⟩ := present_cons hi is
  refine ⟨run_of_next n ?_, exec_command_inputs hi hexec⟩
  rw [step_of_instr hidle (hinputs.trans hpresent) hd, hexec]

/-- The words of `UPDATE` are one step each. -/
theorem Hashing.run_update {alg : Byte} {m : List Byte} {o : OutBytes} {s : State} (h : Hashing alg m o s)
    {bytes : List Byte} {is : List Instr} (hinputs : s.inputs = present (update bytes ++ is)) (n : Nat) :
    ∃ t : State, Host.Core.run Sys2Proof.core (bytes.length + n) s = Host.Core.run Sys2Proof.core n t ∧
      Hashing alg (m ++ bytes) o t ∧ t.inputs = present is := by
  induction bytes generalizing s m with
  | nil => exact ⟨s, by rw [List.length_nil, Nat.zero_add], by rwa [List.append_nil], hinputs⟩
  | cons b bytes ih =>
    obtain ⟨s1, hexec, h1⟩ := (h.setInputs (present (update bytes ++ is))).absorb b
    obtain ⟨hrun1, hinputs1⟩ := run_present_cons rfl h.idle hinputs hexec (bytes.length + n)
    obtain ⟨t, hrun, ht, hrest⟩ := ih h1 hinputs1
    refine ⟨t, ?_, ?_, hrest⟩
    · rw [List.length_cons, Nat.add_right_comm, hrun1, hrun]
    · rwa [List.append_assoc] at ht

/-- Settles O26: each step of the run is one command of the list; the lanes follow the formula from `INIT` on, byte by byte,
and `FINAL` pads, permutes and squeezes them. -/
theorem hashRunComputesSha3 : Obligations.HashRunComputesSha3 := by
  unfold Obligations.HashRunComputesSha3
  intro s alg bytes hclear hidle halg hinputs
  obtain ⟨hrun0, hinputs0⟩ := run_present_cons rfl hidle hinputs (exec_init_of_legal halg hclear) (bytes.length + 1)
  have h0 := startHash_hashing (s := { s with inputs := present (update bytes ++ [.final]) }) halg hclear hidle
  obtain ⟨s1, hrun1, h1, hinputs1⟩ := h0.run_update hinputs0 1
  obtain ⟨t, hexec, hflt, hphase, hlanes, hdigest, hrest⟩ := (h1.setInputs (present [])).final
  obtain ⟨hrun2, hinputs2⟩ := run_present_cons rfl h1.idle hinputs1 hexec 0
  refine ⟨t, ?_, ⟨hinputs2, hflt⟩, hphase, hlanes, hdigest, hrest⟩
  rw [hinputs, length_present_hash, hrun0, hrun1, hrun2, run_zero]

end Sys2Proof.Machine
end
